-- ==== Sys2Proof/Word.lean ====
section
/-! DEFINITION. The word types of the machine: `00_scope.md` R5, R6, R7. Every value is unsigned. -/

namespace Sys2Proof

/-- A byte: general registers, timers, memory (R5). -/
abbrev Byte := BitVec 8

/-- A 16-bit value: the instruction word, `I`, `PC`, stack entries (R5). -/
abbrev Word := BitVec 16

/-- A 4-bit field of an instruction (R6). -/
abbrev Nibble := BitVec 4

/-- The 12-bit address field `nnn` (R6). -/
abbrev Addr12 := BitVec 12

/-- A general register's number, the 4-bit field that selects it (`10_state.md` R21). -/
abbrev RegId := BitVec 4

/-- `VF`, the flag register (`10_state.md` R22). -/
def VF : RegId := 15

/-- `V0`, the offset of jump-with-offset (`10_state.md` R21). -/
def V0 : RegId := 0

end Sys2Proof
end

