-- ==== Sys2Proof/Syntax.lean ====
section
/-! DEFINITION. The instructions: one constructor per row of spec/opcode_table.json, in the order of
`30_encoding.md` R85. Operands are the fields of R82; the bits R87 calls ignored are no operand. -/

namespace Sys2Proof

/-- The CHIP-8 base set, 34 instructions, and the unknown-instruction row (R85, R88). -/
inductive Instr where
  /-- `CLS`, 00E0 (`44_display.md` R161). -/
  | cls
  /-- `RET`, 00EE (`41_control_flow.md` R121). -/
  | ret
  /-- `JP nnn`, 1nnn (R122). -/
  | jp (nnn : Addr12)
  /-- `CALL nnn`, 2nnn (R123). -/
  | call (nnn : Addr12)
  /-- `SE Vx, nn`, 3xnn (R124). -/
  | seImm (x : RegId) (nn : Byte)
  /-- `SNE Vx, nn`, 4xnn (R125). -/
  | sneImm (x : RegId) (nn : Byte)
  /-- `SE Vx, Vy`, 5xy- (R126). -/
  | seReg (x y : RegId)
  /-- `LD Vx, nn`, 6xnn (`42_alu.md` R132). -/
  | ldImm (x : RegId) (nn : Byte)
  /-- `ADD Vx, nn`, 7xnn (R133). -/
  | addImm (x : RegId) (nn : Byte)
  /-- `LD Vx, Vy`, 8xy0 (R134). -/
  | ldReg (x y : RegId)
  /-- `OR Vx, Vy`, 8xy1 (R135). -/
  | orReg (x y : RegId)
  /-- `AND Vx, Vy`, 8xy2 (R136). -/
  | andReg (x y : RegId)
  /-- `XOR Vx, Vy`, 8xy3 (R137). -/
  | xorReg (x y : RegId)
  /-- `ADD Vx, Vy`, 8xy4 (R138). -/
  | addReg (x y : RegId)
  /-- `SUB Vx, Vy`, 8xy5 (R139). -/
  | subReg (x y : RegId)
  /-- `SHR Vx`, 8x-6 (R140). -/
  | shr (x : RegId)
  /-- `SUBN Vx, Vy`, 8xy7 (R141). -/
  | subnReg (x y : RegId)
  /-- `SHL Vx`, 8x-E (R142). -/
  | shl (x : RegId)
  /-- `SNE Vx, Vy`, 9xy- (`41_control_flow.md` R127). -/
  | sneReg (x y : RegId)
  /-- `LD I, nnn`, Annn (`43_index_memory.md` R152). -/
  | ldI (nnn : Addr12)
  /-- `JP V0, nnn`, Bnnn (`41_control_flow.md` R128). -/
  | jpV0 (nnn : Addr12)
  /-- `RND Vx, nn`, Cxnn (`42_alu.md` R143). -/
  | rnd (x : RegId) (nn : Byte)
  /-- `DRW Vx, Vy, n`, Dxyn (`44_display.md` R162). -/
  | drw (x y : RegId) (n : Nibble)
  /-- `SKP Vx`, Ex9E (`45_keys_timers.md` R171). -/
  | skp (x : RegId)
  /-- `SKNP Vx`, ExA1 (R172). -/
  | sknp (x : RegId)
  /-- `LD Vx, DT`, Fx07 (R173). -/
  | ldVxDT (x : RegId)
  /-- `LD Vx, K`, Fx0A (R174). -/
  | ldVxK (x : RegId)
  /-- `LD DT, Vx`, Fx15 (R175). -/
  | ldDTVx (x : RegId)
  /-- `LD ST, Vx`, Fx18 (R176). -/
  | ldSTVx (x : RegId)
  /-- `ADD I, Vx`, Fx1E (`43_index_memory.md` R153). -/
  | addI (x : RegId)
  /-- `LD F, Vx`, Fx29 (R154). -/
  | ldF (x : RegId)
  /-- `LD B, Vx`, Fx33 (R155). -/
  | ldB (x : RegId)
  /-- `LD [I], Vx`, Fx55 (R156). -/
  | storeRegs (x : RegId)
  /-- `LD Vx, [I]`, Fx65 (R157). -/
  | loadRegs (x : RegId)
  /-- The `UNKNOWN` row: a word that matches no other row (`30_encoding.md` R89, `40_cycle.md` R107). -/
  | unknown (ir : Word)
  deriving DecidableEq, Repr

end Sys2Proof
end

