-- ==== Sys2Proof/WellFormed.lean ====
section
/-! DEFINITION. Which terms of `Instr` stand for an instruction word. Every operand's type is exactly
its field's width (`30_encoding.md` R82, R84), so one check is left: the `UNKNOWN` row stands only for
a word that R86 does not recognise. `recognised` is written from R86's table of second-level keys,
the decoder from R85's patterns. -/

namespace Sys2Proof

/-- R86: the words that some row of R85 matches; all others are unknown (R89). -/
def recognised (ir : Word) : Bool :=
  match (ir.extractLsb' 12 4).toNat with
  | 0x0 => ir == 0x00E0 || ir == 0x00EE
  | 0x8 => (ir.extractLsb' 0 4).toNat ∈ [0x0, 0x1, 0x2, 0x3, 0x4, 0x5, 0x6, 0x7, 0xE]
  | 0xE => (ir.extractLsb' 0 8).toNat ∈ [0x9E, 0xA1]
  | 0xF => (ir.extractLsb' 0 8).toNat ∈ [0x07, 0x0A, 0x15, 0x18, 0x1E, 0x29, 0x33, 0x55, 0x65]
  | _ => true

/-- A term stands for an instruction word: `UNKNOWN` only for an unrecognised one (R88, R89). -/
def Instr.wf : Instr → Bool
  | .unknown ir => !recognised ir
  | _ => true

end Sys2Proof
end

