-- ==== Sys2Proof/Decode.lean ====
section
/-! DEFINITION. From an instruction word to an instruction (`30_encoding.md`, `40_cycle.md` R103) and back.
Decoding is total (R92) and depends on the word alone (R81). -/

namespace Sys2Proof

/-! ### The fields of R82 -/

/-- `op = ir[15:12]`. -/
def opField (ir : Word) : Nibble := ir.extractLsb' 12 4

/-- `x = ir[11:8]`. -/
def xField (ir : Word) : RegId := ir.extractLsb' 8 4

/-- `y = ir[7:4]`. -/
def yField (ir : Word) : RegId := ir.extractLsb' 4 4

/-- `n = ir[3:0]`. -/
def nField (ir : Word) : Nibble := ir.extractLsb' 0 4

/-- `nn = ir[7:0]`. -/
def nnField (ir : Word) : Byte := ir.extractLsb' 0 8

/-- `nnn = ir[11:0]`. -/
def nnnField (ir : Word) : Addr12 := ir.extractLsb' 0 12

/-! ### The decoder -/

/-- High nibble 0: the whole word is compared (R86). -/
def decode0 (ir : Word) : Instr :=
  if ir = 0x00E0 then .cls else if ir = 0x00EE then .ret else .unknown ir

/-- High nibble 8: dispatch on the low nibble (R86). `SHR` and `SHL` ignore `y` (R87). -/
def decode8 (ir : Word) : Instr :=
  match (nField ir).toNat with
  | 0x0 => .ldReg (xField ir) (yField ir)
  | 0x1 => .orReg (xField ir) (yField ir)
  | 0x2 => .andReg (xField ir) (yField ir)
  | 0x3 => .xorReg (xField ir) (yField ir)
  | 0x4 => .addReg (xField ir) (yField ir)
  | 0x5 => .subReg (xField ir) (yField ir)
  | 0x6 => .shr (xField ir)
  | 0x7 => .subnReg (xField ir) (yField ir)
  | 0xE => .shl (xField ir)
  | _ => .unknown ir

/-- High nibble E: dispatch on the low byte (R86). -/
def decodeE (ir : Word) : Instr :=
  match (nnField ir).toNat with
  | 0x9E => .skp (xField ir)
  | 0xA1 => .sknp (xField ir)
  | _ => .unknown ir

/-- High nibble F: dispatch on the low byte (R86). -/
def decodeF (ir : Word) : Instr :=
  match (nnField ir).toNat with
  | 0x07 => .ldVxDT (xField ir)
  | 0x0A => .ldVxK (xField ir)
  | 0x15 => .ldDTVx (xField ir)
  | 0x18 => .ldSTVx (xField ir)
  | 0x1E => .addI (xField ir)
  | 0x29 => .ldF (xField ir)
  | 0x33 => .ldB (xField ir)
  | 0x55 => .storeRegs (xField ir)
  | 0x65 => .loadRegs (xField ir)
  | _ => .unknown ir

/-- R85, R86 (log 1): dispatch on the high nibble to exactly one instruction. High nibbles 5 and 9 examine
nothing more, so their low nibble is ignored (R87; log 2). A word that matches no row is `UNKNOWN` (R89). -/
def decode (ir : Word) : Instr :=
  match (opField ir).toNat with
  | 0x0 => decode0 ir
  | 0x1 => .jp (nnnField ir)
  | 0x2 => .call (nnnField ir)
  | 0x3 => .seImm (xField ir) (nnField ir)
  | 0x4 => .sneImm (xField ir) (nnField ir)
  | 0x5 => .seReg (xField ir) (yField ir)
  | 0x6 => .ldImm (xField ir) (nnField ir)
  | 0x7 => .addImm (xField ir) (nnField ir)
  | 0x8 => decode8 ir
  | 0x9 => .sneReg (xField ir) (yField ir)
  | 0xA => .ldI (nnnField ir)
  | 0xB => .jpV0 (nnnField ir)
  | 0xC => .rnd (xField ir) (nnField ir)
  | 0xD => .drw (xField ir) (yField ir) (nField ir)
  | 0xE => decodeE ir
  | _ => decodeF ir

/-! ### Bytes -/

/-- R56: the instruction word is big-endian, `ir[15:8] = MEM[PC]`, `ir[7:0] = MEM[PC + 1]`. -/
def wordOfBytes (hi lo : Byte) : Word := hi ++ lo

/-- The byte at the lower address, `ir[15:8]` (R56). -/
def hiByte (ir : Word) : Byte := ir.extractLsb' 8 8

/-- The byte at the higher address, `ir[7:0]` (R56). -/
def loByte (ir : Word) : Byte := ir.extractLsb' 0 8

/-- The one reason a list of bytes holds no instruction: fewer than the two bytes of R80. -/
inductive DecodeError where
  /-- Raised by `decodeBytes` on fewer than two bytes. The machine never raises it: its fetch reads
  two bytes or faults (`40_cycle.md` R101). Safe. -/
  | truncated
  deriving DecidableEq, Repr

/-- The instruction at the front of a list of bytes, and the bytes after it (R56, R80). -/
def decodeBytes : List Byte → Except DecodeError (Instr × List Byte)
  | hi :: lo :: rest => .ok (decode (wordOfBytes hi lo), rest)
  | _ => .error .truncated

/-- The instruction the decoder reads from a word numbered as spec/opcode_table.json numbers its
bits. Every row has one 16-bit word (R80); bits above `nbits` are 0, and `nbits` is never more than 16. -/
def decodeTableWord (_nbits w : Nat) : Option Instr :=
  let ir : Word := BitVec.ofNat 16 w
  match decodeBytes [hiByte ir, loByte ir] with
  | .ok (i, _) => some i
  | .error _ => none

/-! ### The encoder -/

/-- Format NNN of R83. -/
def encNNN (op : Nibble) (nnn : Addr12) : Word := op ++ nnn

/-- Format XNN of R83; also format X, whose low byte is the function. -/
def encXNN (op : Nibble) (x : RegId) (nn : Byte) : Word := op ++ x ++ nn

/-- Formats XY and XYN of R83. -/
def encXYN (op : Nibble) (x y : RegId) (n : Nibble) : Word := op ++ x ++ y ++ n

/-- The word of an instruction, by the patterns of R85. Ignored bits are encoded 0, the canonical
value spec/opcode_table.json names (R87). -/
def encode : Instr → Word
  | .cls => 0x00E0
  | .ret => 0x00EE
  | .jp nnn => encNNN 0x1 nnn
  | .call nnn => encNNN 0x2 nnn
  | .seImm x nn => encXNN 0x3 x nn
  | .sneImm x nn => encXNN 0x4 x nn
  | .seReg x y => encXYN 0x5 x y 0x0
  | .ldImm x nn => encXNN 0x6 x nn
  | .addImm x nn => encXNN 0x7 x nn
  | .ldReg x y => encXYN 0x8 x y 0x0
  | .orReg x y => encXYN 0x8 x y 0x1
  | .andReg x y => encXYN 0x8 x y 0x2
  | .xorReg x y => encXYN 0x8 x y 0x3
  | .addReg x y => encXYN 0x8 x y 0x4
  | .subReg x y => encXYN 0x8 x y 0x5
  | .shr x => encXYN 0x8 x 0x0 0x6
  | .subnReg x y => encXYN 0x8 x y 0x7
  | .shl x => encXYN 0x8 x 0x0 0xE
  | .sneReg x y => encXYN 0x9 x y 0x0
  | .ldI nnn => encNNN 0xA nnn
  | .jpV0 nnn => encNNN 0xB nnn
  | .rnd x nn => encXNN 0xC x nn
  | .drw x y n => encXYN 0xD x y n
  | .skp x => encXNN 0xE x 0x9E
  | .sknp x => encXNN 0xE x 0xA1
  | .ldVxDT x => encXNN 0xF x 0x07
  | .ldVxK x => encXNN 0xF x 0x0A
  | .ldDTVx x => encXNN 0xF x 0x15
  | .ldSTVx x => encXNN 0xF x 0x18
  | .addI x => encXNN 0xF x 0x1E
  | .ldF x => encXNN 0xF x 0x29
  | .ldB x => encXNN 0xF x 0x33
  | .storeRegs x => encXNN 0xF x 0x55
  | .loadRegs x => encXNN 0xF x 0x65
  | .unknown ir => ir

/-- The two bytes of an instruction, high byte first (R56). -/
def encodeBytes (i : Instr) : List Byte := [hiByte (encode i), loByte (encode i)]

/-! ### The machine-readable table (R88) -/

/-- One row of spec/opcode_table.json: a word `w` selects it when `w &&& mask = pattern` (R88). -/
structure OpcodeRow where
  pattern : Word
  mask : Word
  deriving DecidableEq, Repr

/-- Rows 1 to 9 of R85 as spec/opcode_table.json gives them. -/
def opcodeRowsLow : List OpcodeRow :=
  [⟨0x00E0, 0xFFFF⟩, ⟨0x00EE, 0xFFFF⟩, ⟨0x1000, 0xF000⟩, ⟨0x2000, 0xF000⟩, ⟨0x3000, 0xF000⟩,
   ⟨0x4000, 0xF000⟩, ⟨0x5000, 0xF000⟩, ⟨0x6000, 0xF000⟩, ⟨0x7000, 0xF000⟩]

/-- Rows 10 to 18, the high nibble 8. -/
def opcodeRows8 : List OpcodeRow :=
  [⟨0x8000, 0xF00F⟩, ⟨0x8001, 0xF00F⟩, ⟨0x8002, 0xF00F⟩, ⟨0x8003, 0xF00F⟩, ⟨0x8004, 0xF00F⟩,
   ⟨0x8005, 0xF00F⟩, ⟨0x8006, 0xF00F⟩, ⟨0x8007, 0xF00F⟩, ⟨0x800E, 0xF00F⟩]

/-- Rows 19 to 25. -/
def opcodeRowsHigh : List OpcodeRow :=
  [⟨0x9000, 0xF000⟩, ⟨0xA000, 0xF000⟩, ⟨0xB000, 0xF000⟩, ⟨0xC000, 0xF000⟩, ⟨0xD000, 0xF000⟩,
   ⟨0xE09E, 0xF0FF⟩, ⟨0xE0A1, 0xF0FF⟩]

/-- Rows 26 to 34, the high nibble F. -/
def opcodeRowsF : List OpcodeRow :=
  [⟨0xF007, 0xF0FF⟩, ⟨0xF00A, 0xF0FF⟩, ⟨0xF015, 0xF0FF⟩, ⟨0xF018, 0xF0FF⟩, ⟨0xF01E, 0xF0FF⟩,
   ⟨0xF029, 0xF0FF⟩, ⟨0xF033, 0xF0FF⟩, ⟨0xF055, 0xF0FF⟩, ⟨0xF065, 0xF0FF⟩]

/-- The 34 rows of R85 in order; `UNKNOWN` is the row after them. -/
def opcodeRows : List OpcodeRow :=
  opcodeRowsLow ++ opcodeRows8 ++ opcodeRowsHigh ++ opcodeRowsF

/-- The place of an instruction's row in `opcodeRows`, 34 for `UNKNOWN` (R85, R88). -/
def Instr.row : Instr → Nat
  | .cls => 0 | .ret => 1 | .jp _ => 2 | .call _ => 3 | .seImm _ _ => 4 | .sneImm _ _ => 5
  | .seReg _ _ => 6 | .ldImm _ _ => 7 | .addImm _ _ => 8 | .ldReg _ _ => 9 | .orReg _ _ => 10
  | .andReg _ _ => 11 | .xorReg _ _ => 12 | .addReg _ _ => 13 | .subReg _ _ => 14 | .shr _ => 15
  | .subnReg _ _ => 16 | .shl _ => 17 | .sneReg _ _ => 18 | .ldI _ => 19 | .jpV0 _ => 20
  | .rnd _ _ => 21 | .drw _ _ _ => 22 | .skp _ => 23 | .sknp _ => 24 | .ldVxDT _ => 25
  | .ldVxK _ => 26 | .ldDTVx _ => 27 | .ldSTVx _ => 28 | .addI _ => 29 | .ldF _ => 30
  | .ldB _ => 31 | .storeRegs _ => 32 | .loadRegs _ => 33 | .unknown _ => 34

/-- The first row of `opcodeRows` that a word selects, 34 when it selects none (R88). -/
def rowOfWord (w : Word) : Nat :=
  opcodeRows.findIdx fun r => w &&& r.mask = r.pattern

end Sys2Proof
end

