-- ==== Sys2Proof/Config.lean ====
section
/-! DEFINITION. What the hardware fixes (`00_scope.md` R5, first table) and the free values the spec
leaves open (R5, second table). The configuration parameter
GLYPH_TABLE is an argument: its type stands here, its default in Machine/Glyphs.lean (log 3). CLOCKS_PER_CYCLE and the cycle rate are
OPEN and no rule depends on them, so they have no name here (log 16). -/

namespace Sys2Proof

/-- A value of the configuration parameter GLYPH_TABLE: the 80 bytes that 0x000 to 0x04F hold after reset
(R5, `20_memory.md` R52, R53, `93_implementation_defined.md` U11). -/
abbrev GlyphTable := Vector Byte 80

namespace Config

/-- The highest memory address, `0xFFF` (R5, `20_memory.md` R50). -/
abbrev memTop : Nat := 0xFFF

/-- PROG_BASE, the entry point and load address (R5). -/
abbrev progBase : Nat := 0x200

/-- The longest program image, `0xE00` bytes (R5, `20_memory.md` R54). -/
abbrev maxProgram : Nat := 0xE00

/-- STACK_DEPTH (R5, `10_state.md` R25). -/
abbrev stackDepth : Nat := 16

/-- FB_W, columns of the framebuffer (R5, `10_state.md` R27). -/
abbrev fbWidth : Nat := 64

/-- FB_H, rows of the framebuffer (R5, `10_state.md` R27). -/
abbrev fbHeight : Nat := 32

/-- FREE VALUE (`42_alu.md` R143, `92_eei_decisions.md` D11; log 6): the byte the random source
supplies to the `k`-th executed `RND`. It has no body, so nothing can be proved of its value. -/
opaque randomByte : Nat → Byte

end Config

end Sys2Proof
end

