-- ==== Sys2Proof/Machine/State.lean ====
section
/-! DEFINITION. The machine's state as plain data (`10_state.md`), the reasons a step can stop, and
the state after reset (R32). -/

namespace Sys2Proof.Machine

/-- The fault latch `FAULT` (`10_state.md` R30): why the core halted. -/
inductive FaultCode where
  /-- 0, the core is running. -/
  | none
  /-- 1, a memory access above 0xFFF (`60_exceptions.md` R181). -/
  | outOfBoundsMemory
  /-- 2, `CALL` at depth 16 (R182). -/
  | stackOverflow
  /-- 3, `RET` at depth 0 (R183). -/
  | stackUnderflow
  deriving DecidableEq, Repr

/-- Memory (`10_state.md` R29): the configured glyph table and the bytes that differ from what reset left
(log 3, log 9). -/
structure Memory where
  /-- CONFIGURATION, not state: the GLYPH_TABLE this machine is built with (`20_memory.md` R53). Reset
  fills 0x000 to 0x04F with it, and no step changes it (log 21). -/
  glyphs : GlyphTable
  /-- The bytes that differ from what reset left, in rising order of address. -/
  cells : List Host.Cell
  deriving DecidableEq, Repr

/-- The MachineState of `10_state.md` R20, the diagnostic output of `60_exceptions.md` R185, and the
model's own two fields for what comes from outside. -/
structure State where
  /-- `V[0]` to `V[15]` (R21, R22). -/
  v : Vector Byte 16
  /-- The index register `I` (R23). -/
  i : Word
  /-- The program counter `PC` (R24). -/
  pc : Word
  /-- `STACK[0]` to `STACK[15]`; the live entries are those below `sp` (R25; log 19). -/
  stack : Vector Word 16
  /-- The depth count `SP`, 0 to 16 (R25). -/
  sp : Fin 17
  /-- The delay timer `DT` (R26). -/
  dt : Byte
  /-- The sound timer `ST` (R26). -/
  st : Byte
  /-- The framebuffer, one 64-bit row for each of the 32 rows; bit `c` of row `r` is `FB[c, r]` (R27; log 13). -/
  fb : Vector (BitVec 64) 32
  /-- The input latch, bit `k` is `KEYS[k]` (R28). -/
  keys : BitVec 16
  /-- `MEM` (R29). -/
  mem : Memory
  /-- The fault latch `FAULT` (R30). -/
  fault : FaultCode
  /-- The outputs `unknown_opcode` and `unknown_ir` of the last completed cycle (`60_exceptions.md`
  R185, R197; log 8). No instruction reads it. -/
  unknownIr : Option Word
  /-- The MODEL's own field: how many random bytes have been drawn (log 6). -/
  rndDraws : Nat
  /-- The MODEL's own field: what the input provider writes in the latch after each coming completed
  cycle (log 7). -/
  keyInputs : List (BitVec 16)
  deriving DecidableEq, Repr

/-- Reasons for which a step stops with a fault. There is none, so this type has no constructor and
nobody raises one: the spec's three fatal conditions latch `FAULT` and the machine goes on to a next
state, the halted core (`60_exceptions.md` R188, `40_cycle.md` R110; log 5). Safe. -/
inductive Fault
  deriving DecidableEq, Repr

/-- Reasons for which an instruction has no meaning in this model. -/
inductive Refusal where
  /-- Raised by an arm of `exec` whose instruction is not modelled yet. No arm raises it: every row of
  the opcode table has its meaning. Safe. -/
  | notModelled (mnemonic : String)
  deriving DecidableEq, Repr

/-- The three outcomes of a step, for this machine. -/
abbrev Result := Host.Outcome State Fault Refusal

/-- The state after reset, before a program is loaded (`10_state.md` R32, `70_reset_and_hazards.md`
R210; log 4), of a machine configured with the glyph table `g` (log 3). The last two fields are the
model's own (log 6, log 7). -/
def State.resetWith (g : GlyphTable) : State where
  v := Vector.replicate 16 0
  i := 0
  pc := 0x200
  stack := Vector.replicate 16 0
  sp := 0
  dt := 0
  st := 0
  fb := Vector.replicate 32 0
  keys := 0
  mem := { glyphs := g, cells := [] }
  fault := .none
  unknownIr := none
  rndDraws := 0
  keyInputs := []

/-- The state after reset of a machine whose GLYPH_TABLE is the default (`20_memory.md` R53). -/
def State.reset : State := State.resetWith defaultGlyphs

end Sys2Proof.Machine
end

