-- ==== Sys2Proof/Machine/Ops.lean ====
section
/-! DEFINITION. The named operations over memory, registers, stack, timers, framebuffer and latch, and
the entry of a fatal condition. Everything an instruction does it does through these. -/

namespace Sys2Proof.Machine

/-! ### Memory (`20_memory.md`) -/

/-- What reset leaves at an address of a machine with the glyph table `g`: the table at 0x000 to 0x04F,
zero above it (R55). It is what an address that the memory does not list reads as (log 9). -/
def unlisted (g : GlyphTable) (a : Nat) : Byte := g.getD a 0

/-- The byte at address `a` of a list of cells. -/
def peekCells (g : GlyphTable) : List Host.Cell → Nat → Byte
  | [], a => unlisted g a
  | (k, b) :: rest, a => if a < k then unlisted g a else if a = k then b else peekCells g rest a

/-- The cells with the byte `b` at address `a`, in the canonical form. -/
def pokeCells (g : GlyphTable) : List Host.Cell → Nat → Byte → List Host.Cell
  | [], a, b => if b = unlisted g a then [] else [(a, b)]
  | (k, old) :: rest, a, b =>
    if a < k then (if b = unlisted g a then (k, old) :: rest else (a, b) :: (k, old) :: rest)
    else if a = k then (if b = unlisted g a then rest else (a, b) :: rest)
    else (k, old) :: pokeCells g rest a b

/-- The canonical form from address `lo` on: addresses rise strictly, stay in range, and no cell holds
what an unlisted address reads as. -/
def wfCells (g : GlyphTable) : Nat → List Host.Cell → Bool
  | _, [] => true
  | lo, (k, b) :: rest => lo ≤ k && k ≤ Config.memTop && b != unlisted g k && wfCells g (k + 1) rest

/-- The byte `MEM[a]`, `a` in range. -/
def Memory.peek (m : Memory) (a : Nat) : Byte := peekCells m.glyphs m.cells a

/-- `MEM[a] <- b`, `a` in range, keeping the canonical form. -/
def Memory.poke (m : Memory) (a : Nat) (b : Byte) : Memory :=
  { m with cells := pokeCells m.glyphs m.cells a b }

/-- The canonical form of a memory (log 9). -/
def Memory.wf (m : Memory) : Bool := wfCells m.glyphs 0 m.cells

/-- `MemRead(a, 1)` of `00_scope.md` R9: nothing above 0xFFF (`20_memory.md` R59, never a wrap, R61). -/
def Memory.read? (m : Memory) (a : Nat) : Option Byte :=
  if a ≤ Config.memTop then some (peek m a) else none

/-- The `n` bytes from `a` on are all in range; no byte is asked for when `n = 0` (R59, R61; for `DRW`
`44_display.md` R166). -/
def blockInBounds (a n : Nat) : Bool := n = 0 || a + n ≤ Config.memTop + 1

/-- Read `n` bytes from `a` on, lowest address first, or nothing if one is out of range (R59, R68). -/
def Memory.readBlock (m : Memory) (a n : Nat) : Option (List Byte) :=
  if blockInBounds a n then some ((List.range n).map fun k => peek m (a + k)) else none

/-- Write bytes from `a` on, lowest address first. -/
def Memory.pokeList : Memory → Nat → List Byte → Memory
  | m, _, [] => m
  | m, a, b :: bs => pokeList (poke m a b) (a + 1) bs

/-- Write bytes from `a` on, or nothing at all if one address is out of range (R59, R68). -/
def Memory.writeBlock (m : Memory) (a : Nat) (bs : List Byte) : Option Memory :=
  if blockInBounds a bs.length then some (pokeList m a bs) else none

/-! ### Registers (`10_state.md` R21 to R24) -/

/-- `V[x]`. -/
def State.reg (s : State) (x : RegId) : Byte := s.v[x.toNat]'x.isLt

/-- `V[x] <- b`. No register is hardwired (R21). -/
def State.setReg (s : State) (x : RegId) (b : Byte) : State :=
  { s with v := s.v.set x.toNat b x.isLt }

/-- The registers from `V[k]` on take the bytes of a list in order; bytes past `V[15]` are dropped. -/
def setRegList : Vector Byte 16 → Nat → List Byte → Vector Byte 16
  | v, _, [] => v
  | v, k, b :: bs => setRegList (if h : k < 16 then v.set k b h else v) (k + 1) bs

/-- `V[0]`, `V[1]`, ... take the bytes of a list in order (`43_index_memory.md` R157). -/
def State.setRegs (s : State) (bs : List Byte) : State := { s with v := setRegList s.v 0 bs }

/-- `I <- w`. -/
def State.setI (s : State) (w : Word) : State := { s with i := w }

/-- `PC <- w`; nothing masks or aligns it (R24). -/
def State.setPC (s : State) (w : Word) : State := { s with pc := w }

/-- `MEM <- m`. -/
def State.setMem (s : State) (m : Memory) : State := { s with mem := m }

/-- `DT <- b`. -/
def State.setDT (s : State) (b : Byte) : State := { s with dt := b }

/-- `ST <- b`. -/
def State.setST (s : State) (b : Byte) : State := { s with st := b }

/-- The whole framebuffer is replaced. -/
def State.setFB (s : State) (f : Vector (BitVec 64) 32) : State := { s with fb := f }

/-- `report UnknownOpcode(ir)`: the diagnostic output of this cycle (`60_exceptions.md` R185). -/
def State.report (s : State) (ir : Word) : State := { s with unknownIr := some ir }

/-- A cycle begins with no diagnostic of its own (R185: 0 for a cycle that executes a recognised word). -/
def State.clearReport (s : State) : State := { s with unknownIr := none }

/-- A random byte has been drawn (`42_alu.md` R143; log 6). -/
def State.countDraw (s : State) : State := { s with rndDraws := s.rndDraws + 1 }

/-! ### The program counter during a cycle (`40_cycle.md` R102) -/

/-- `npc = PC + 2`, the current `PC` as every handler sees it. -/
def State.npc (s : State) : Word := s.pc + 2

/-- The sequential end of a handler: `PC <- npc`. -/
def State.advance (s : State) : State := s.setPC s.npc

/-- A skip: `npc + 2` when the condition holds, else `npc` (`41_control_flow.md` R120). -/
def State.skipIf (s : State) (c : Bool) : State := s.setPC (if c then s.npc + 2 else s.npc)

/-! ### The call stack (`10_state.md` R25) -/

/-- Push a return address, or nothing at depth 16. -/
def State.push? (s : State) (w : Word) : Option State :=
  if h : s.sp.val < Config.stackDepth then
    some { s with stack := s.stack.set s.sp.val w h, sp := ⟨s.sp.val + 1, Nat.succ_lt_succ h⟩ }
  else none

/-- Pop the most recent return address, or nothing at depth 0. The dead entry keeps its value. -/
def State.pop? (s : State) : Option (Word × State) :=
  if 0 < s.sp.val then
    some (s.stack[s.sp.val - 1]'(by have := s.sp.isLt; omega),
      { s with sp := ⟨s.sp.val - 1, by have := s.sp.isLt; omega⟩ })
  else none

/-! ### The framebuffer (`10_state.md` R27, `44_display.md`) -/

/-- `FB[c, r]` of a framebuffer; off outside the grid. -/
def pixelOf (f : Vector (BitVec 64) 32) (c r : Nat) : Bool := (f.getD r 0).getLsbD c

/-- `FB[c, r]`. -/
def State.pixel (s : State) (c r : Nat) : Bool := pixelOf s.fb c r

/-- `FB[c, r] <- FB[c, r] ^ 1`. -/
def togglePixel (f : Vector (BitVec 64) 32) (c r : Nat) : Vector (BitVec 64) 32 :=
  if h : r < 32 then f.set r (f[r] ^^^ BitVec.twoPow 64 c) h else f

/-- A draw in progress: the framebuffer so far and the running collision flag (R162). -/
structure Canvas where
  fb : Vector (BitVec 64) 32
  hit : Bool
  deriving DecidableEq, Repr

/-- One bit of a sprite row, offset `col` from the start column: a set bit toggles its pixel, and
turning an on pixel off is a collision (R162, R164, R165). -/
def drawBit (ox oy j : Nat) (b : Byte) (cv : Canvas) (col : Nat) : Canvas :=
  if b.getLsbD (7 - col) then
    let c := (ox + col) % 64
    let r := (oy + j) % 32
    { fb := togglePixel cv.fb c r, hit := cv.hit || pixelOf cv.fb c r }
  else cv

/-- One sprite row: its eight bits, most significant first (R160, R162). -/
def drawRow (ox oy j : Nat) (b : Byte) (cv : Canvas) : Canvas :=
  (List.range 8).foldl (drawBit ox oy j b) cv

/-- Sprite rows from row `j` on, top row first (R162, R163). -/
def drawRows (ox oy : Nat) : Nat → List Byte → Canvas → Canvas
  | _, [], cv => cv
  | j, b :: bs, cv => drawRows ox oy (j + 1) bs (drawRow ox oy j b cv)

/-! ### Timers and latch at the end of a cycle -/

/-- One tick of a timer: down by one while positive (`40_cycle.md` R106). -/
def tickTimer (b : Byte) : Byte := if b = 0 then 0 else b - 1

/-- The timer tick at the end of a completed cycle (R106). -/
def State.tick (s : State) : State := { s with dt := tickTimer s.dt, st := tickTimer s.st }

/-- Between two cycles the input provider may write the latch (`10_state.md` R28, D15; log 7). With no
write pending the latch keeps its value. -/
def State.takeKeyInput (s : State) : State :=
  match s.keyInputs with
  | [] => s
  | k :: ks => { s with keys := k, keyInputs := ks }

/-! ### A fatal condition (`60_exceptions.md` R188) -/

/-- `FAULT <- c`. -/
def State.latch (s : State) (c : FaultCode) : State := { s with fault := c }

/-- Taking a fatal condition, the same for all three: `FAULT` latches the code, nothing else changes,
nothing is saved and control goes nowhere (R188). There is no return from it but reset (R189), which is
`assertReset` in Machine/Environment.lean. -/
def raiseFault (c : FaultCode) (s : State) : Result := .next (s.latch c)

end Sys2Proof.Machine
end

