-- ==== Sys2Proof/Machine/Flags.lean ====
section
/-! DEFINITION. The flag computations: the six instructions that overwrite `VF` (`10_state.md` R22) and
the order of the two writes (`42_alu.md` R130). -/

namespace Sys2Proof.Machine

/-- A flag as the byte `VF` holds: 1 or 0. -/
def flagByte (c : Bool) : Byte := if c then 1 else 0

/-- `ADD Vx, Vy`: the 9-bit sum exceeds 255 (R138). -/
def carryFlag (a b : Byte) : Bool := decide (255 < a.toNat + b.toNat)

/-- `SUB` and `SUBN`: strictly greater, so equal operands give 0 (R139, R141, `90_conflicts.md` C2). -/
def greaterFlag (a b : Byte) : Bool := decide (b.toNat < a.toNat)

/-- `SHR`: the bit shifted out, bit 0 (R140). -/
def shrFlag (a : Byte) : Bool := a.getLsbD 0

/-- `SHL`: the bit shifted out, bit 7 (R142). -/
def shlFlag (a : Byte) : Bool := a.getLsbD 7

/-- Write the result to `V[x]`, then the flag to `VF`; with `x = 15` the flag survives (R130, D7; log 18). -/
def State.setResultFlag (s : State) (x : RegId) (res : Byte) (flag : Bool) : State :=
  (s.setReg x res).setReg VF (flagByte flag)

end Sys2Proof.Machine
end

