-- ==== Sys2Proof/Machine/Operands.lean ====
section
/-! DEFINITION. The operand forms (`30_encoding.md` R84): registers, zero-extended immediates, the block
at `I`, the key a register names, the fetch of the instruction word. -/

namespace Sys2Proof.Machine

/-- `zext_16(nnn)` (R84). -/
def addrOperand (nnn : Addr12) : Word := nnn.setWidth 16

/-- `zext_16(V[x])` (`43_index_memory.md` R153, R154). -/
def State.regWord (s : State) (x : RegId) : Word := (s.reg x).setWidth 16

/-- The base address of the block at `I`, a natural number that is never wrapped (`20_memory.md` R61). -/
def State.blockBase (s : State) : Nat := s.i.toNat

/-- `V[0]` to `V[x]` inclusive, `V[0]` first (`43_index_memory.md` R156). -/
def State.regsUpTo (s : State) (x : RegId) : List Byte := s.v.toList.take (x.toNat + 1)

/-- The three decimal digits of a byte, hundreds first (R155). -/
def bcdDigits (b : Byte) : List Byte :=
  [BitVec.ofNat 8 (b.toNat / 100), BitVec.ofNat 8 (b.toNat / 10 % 10), BitVec.ofNat 8 (b.toNat % 10)]

/-- `KEYS[V[x][3:0]]`: the low nibble of the register selects the key (`45_keys_timers.md` R170, D10). -/
def State.keyOf (s : State) (x : RegId) : Bool := s.keys.getLsbD ((s.reg x).extractLsb' 0 4).toNat

/-- The least `k` with `KEYS[k] = 1`, if a key is down (R174). -/
def lowestKey (keys : BitVec 16) : Option Nat := (List.range 16).find? fun k => keys.getLsbD k

/-- The instruction word at `PC`, big-endian, or nothing when one of its two bytes is out of range
(`40_cycle.md` R101). `PC + 1` does not wrap. -/
def State.fetch (s : State) : Option Word :=
  match s.mem.read? s.pc.toNat, s.mem.read? (s.pc.toNat + 1) with
  | some hi, some lo => some (hi ++ lo)
  | _, _ => none

end Sys2Proof.Machine
end

