-- ==== Sys2Proof/Machine/Alu.lean ====
section
/-! DEFINITION. Register arithmetic and logic: `42_alu.md`. Results are mod 256; both values are
computed from the registers at the start of the cycle (R130). -/

namespace Sys2Proof.Machine

/-- `LD Vx, nn` (R132). -/
def execLdImm (x : RegId) (nn : Byte) (s : State) : Result := .next (s.setReg x nn).advance

/-- `ADD Vx, nn` (R133): no flag. -/
def execAddImm (x : RegId) (nn : Byte) (s : State) : Result :=
  .next (s.setReg x (s.reg x + nn)).advance

/-- `LD Vx, Vy` (R134). -/
def execLdReg (x y : RegId) (s : State) : Result := .next (s.setReg x (s.reg y)).advance

/-- `OR Vx, Vy` (R135): `VF` is not cleared (R131, D13). -/
def execOrReg (x y : RegId) (s : State) : Result := .next (s.setReg x (s.reg x ||| s.reg y)).advance

/-- `AND Vx, Vy` (R136). -/
def execAndReg (x y : RegId) (s : State) : Result := .next (s.setReg x (s.reg x &&& s.reg y)).advance

/-- `XOR Vx, Vy` (R137). -/
def execXorReg (x y : RegId) (s : State) : Result := .next (s.setReg x (s.reg x ^^^ s.reg y)).advance

/-- `ADD Vx, Vy` (R138): `VF` is the carry out; no carry is added in. -/
def execAddReg (x y : RegId) (s : State) : Result :=
  .next (s.setResultFlag x (s.reg x + s.reg y) (carryFlag (s.reg x) (s.reg y))).advance

/-- `SUB Vx, Vy` (R139): `VF` is 1 exactly when `V[x] > V[y]`. -/
def execSubReg (x y : RegId) (s : State) : Result :=
  .next (s.setResultFlag x (s.reg x - s.reg y) (greaterFlag (s.reg x) (s.reg y))).advance

/-- `SHR Vx` (R140): `V[y]` is neither read nor written. -/
def execShr (x : RegId) (s : State) : Result :=
  .next (s.setResultFlag x (s.reg x >>> 1) (shrFlag (s.reg x))).advance

/-- `SUBN Vx, Vy` (R141): `VF` is 1 exactly when `V[y] > V[x]`. -/
def execSubnReg (x y : RegId) (s : State) : Result :=
  .next (s.setResultFlag x (s.reg y - s.reg x) (greaterFlag (s.reg y) (s.reg x))).advance

/-- `SHL Vx` (R142). -/
def execShl (x : RegId) (s : State) : Result :=
  .next (s.setResultFlag x (s.reg x <<< 1) (shlFlag (s.reg x))).advance

/-- `RND` with the byte `r` from the random source (R143). -/
def randomInto (r : Byte) (x : RegId) (nn : Byte) (s : State) : Result :=
  .next (s.countDraw.setReg x (r &&& nn)).advance

/-- `RND Vx, nn` (R143): the byte is a free value, drawn anew by each executed `RND` (D11; log 6). -/
def execRnd (x : RegId) (nn : Byte) (s : State) : Result :=
  randomInto (Config.randomByte s.rndDraws) x nn s

end Sys2Proof.Machine
end

