-- ==== Sys2Proof/Machine/ControlFlow.lean ====
section
/-! DEFINITION. Control transfer: `41_control_flow.md`. A target is not checked; a bad one faults at
the next fetch (R120). -/

namespace Sys2Proof.Machine

/-- `RET` (R121): pop the return address into `PC`; `StackUnderflow` at depth 0. -/
def execRet (s : State) : Result :=
  match s.pop? with
  | some (target, t) => .next (t.setPC target)
  | none => raiseFault .stackUnderflow s

/-- `JP nnn` (R122). -/
def execJp (nnn : Addr12) (s : State) : Result := .next (s.setPC (addrOperand nnn))

/-- `CALL nnn` (R123): push `npc`, then jump; `StackOverflow` at depth 16. -/
def execCall (nnn : Addr12) (s : State) : Result :=
  match s.push? s.npc with
  | some t => .next (t.setPC (addrOperand nnn))
  | none => raiseFault .stackOverflow s

/-- `SE Vx, nn` (R124). -/
def execSeImm (x : RegId) (nn : Byte) (s : State) : Result := .next (s.skipIf (s.reg x == nn))

/-- `SNE Vx, nn` (R125). -/
def execSneImm (x : RegId) (nn : Byte) (s : State) : Result := .next (s.skipIf (s.reg x != nn))

/-- `SE Vx, Vy` (R126). -/
def execSeReg (x y : RegId) (s : State) : Result := .next (s.skipIf (s.reg x == s.reg y))

/-- `SNE Vx, Vy` (R127). -/
def execSneReg (x y : RegId) (s : State) : Result := .next (s.skipIf (s.reg x != s.reg y))

/-- `JP V0, nnn` (R128): the 16-bit sum, not masked. -/
def execJpV0 (nnn : Addr12) (s : State) : Result :=
  .next (s.setPC (addrOperand nnn + s.regWord V0))

end Sys2Proof.Machine
end

