-- ==== Sys2Proof/Machine/Display.lean ====
section
/-! DEFINITION. The display instructions: `44_display.md`. -/

namespace Sys2Proof.Machine

/-- `CLS` (R161). -/
def execCls (s : State) : Result := .next (s.setFB (Vector.replicate 32 0)).advance

/-- `DRW Vx, Vy, n` (R162 to R166): the coordinates are read before `VF` is written (R165), the sprite
bytes are read or the whole draw faults (R166), `VF` takes the collision flag (R164). -/
def execDrw (x y : RegId) (n : Nibble) (s : State) : Result :=
  match s.mem.readBlock s.blockBase n.toNat with
  | some rows =>
    let cv := drawRows ((s.reg x).toNat % 64) ((s.reg y).toNat % 32) 0 rows ⟨s.fb, false⟩
    .next ((s.setFB cv.fb).setReg VF (flagByte cv.hit)).advance
  | none => raiseFault .outOfBoundsMemory s

end Sys2Proof.Machine
end

