-- ==== Sys2Proof/Machine/IndexMemory.lean ====
section
/-! DEFINITION. The index register, loads and stores: `43_index_memory.md`. A memory access leaves `I`
as it was (R151, D12); bounds are checked before any write (R150). -/

namespace Sys2Proof.Machine

/-- `LD I, nnn` (R152). -/
def execLdI (nnn : Addr12) (s : State) : Result := .next (s.setI (addrOperand nnn)).advance

/-- `ADD I, Vx` (R153): masked to 12 bits, no flag. -/
def execAddI (x : RegId) (s : State) : Result :=
  .next (s.setI ((s.i + s.regWord x) &&& 0x0FFF)).advance

/-- `LD F, Vx` (R154): the whole byte is multiplied. -/
def execLdF (x : RegId) (s : State) : Result :=
  .next (s.setI ((s.regWord x * 5) &&& 0x0FFF)).advance

/-- Store bytes from `I` on, or raise `OutOfBoundsMemory` and store none (R150). -/
def storeBlock (bs : List Byte) (s : State) : Result :=
  match s.mem.writeBlock s.blockBase bs with
  | some m => .next (s.setMem m).advance
  | none => raiseFault .outOfBoundsMemory s

/-- `LD B, Vx` (R155). -/
def execLdB (x : RegId) (s : State) : Result := storeBlock (bcdDigits (s.reg x)) s

/-- `LD [I], Vx` (R156). -/
def execStoreRegs (x : RegId) (s : State) : Result := storeBlock (s.regsUpTo x) s

/-- `LD Vx, [I]` (R157). -/
def execLoadRegs (x : RegId) (s : State) : Result :=
  match s.mem.readBlock s.blockBase (x.toNat + 1) with
  | some bs => .next (s.setRegs bs).advance
  | none => raiseFault .outOfBoundsMemory s

end Sys2Proof.Machine
end

