-- ==== Sys2Proof/Machine/KeysTimers.lean ====
section
/-! DEFINITION. The key and timer instructions: `45_keys_timers.md`. The tick of the same cycle comes
after them (R177; Machine/Cycle.lean). -/

namespace Sys2Proof.Machine

/-- `SKP Vx` (R171). -/
def execSkp (x : RegId) (s : State) : Result := .next (s.skipIf (s.keyOf x))

/-- `SKNP Vx` (R172). -/
def execSknp (x : RegId) (s : State) : Result := .next (s.skipIf (!s.keyOf x))

/-- `LD Vx, DT` (R173): the value before this cycle's tick. -/
def execLdVxDT (x : RegId) (s : State) : Result := .next (s.setReg x s.dt).advance

/-- `LD Vx, K` (R174): with no key down `PC` is rewound, so the same instruction runs again next
cycle; else the lowest key's number. -/
def execLdVxK (x : RegId) (s : State) : Result :=
  match lowestKey s.keys with
  | none => .next (s.setPC (s.npc - 2))
  | some k => .next (s.setReg x (BitVec.ofNat 8 k)).advance

/-- `LD DT, Vx` (R175). -/
def execLdDTVx (x : RegId) (s : State) : Result := .next (s.setDT (s.reg x)).advance

/-- `LD ST, Vx` (R176). -/
def execLdSTVx (x : RegId) (s : State) : Result := .next (s.setST (s.reg x)).advance

end Sys2Proof.Machine
end

