-- ==== Sys2Proof/Machine/Unknown.lean ====
section
/-! DEFINITION. The unknown-instruction no-op: `40_cycle.md` R107. -/

namespace Sys2Proof.Machine

/-- `UNKNOWN` (R107): the diagnostic is raised, `PC` advances, nothing else changes. -/
def execUnknown (ir : Word) (s : State) : Result := .next (s.report ir).advance

end Sys2Proof.Machine
end

