-- ==== Sys2Proof/Machine/Cycle.lean ====
section
/-! DEFINITION. The engine cycle: `40_cycle.md` R100 to R112. -/

namespace Sys2Proof.Machine

/-- The end of a completed cycle: the tick on what the handler left (R106), then the input provider's
next write of the latch, if it makes one before the next cycle (`10_state.md` R28; log 7). -/
def State.endCycle (s : State) : State := s.tick.takeKeyInput

/-- Commit (R105, R112): a handler that raised no fatal condition is committed and the timers tick; one
that raised `f` leaves the state at the start of the cycle with `FAULT <- f` (R109). -/
def commit (s : State) : Result → Result
  | .next t => if t.fault = .none then .next t.endCycle else raiseFault t.fault s
  | .fault r => .fault r
  | .refused r => .refused r

/-- Decode, dispatch and commit of the word `ir` (R103 to R107). -/
def runWord (ir : Word) (s : State) : Result := commit s (exec (decode ir) s.clearReport)

/-- The whole cycle (R112): a halted core does nothing (R110); a fetch past 0xFFF faults (R101). -/
def cycle (s : State) : Result :=
  if s.fault = .none then
    match s.fetch with
    | some ir => runWord ir s
    | none => raiseFault .outOfBoundsMemory s
  else .next s

/-! ### Placing one word where the next cycle fetches it (log 11) -/

/-- Make the next fetch possible: no latched fault, and a `PC` whose two bytes exist. -/
def State.readyToFetch (s : State) : State :=
  { s with fault := .none, pc := if s.pc.toNat + 1 ≤ Config.memTop then s.pc else 0x200 }

/-- Store a word, high byte first, at `PC` (`20_memory.md` R56). -/
def State.placeWord (s : State) (ir : Word) : State :=
  s.setMem (s.mem.pokeList s.pc.toNat [hiByte ir, loByte ir])

end Sys2Proof.Machine
end

