-- ==== Sys2Proof/Machine/Step.lean ====
section
/-! DEFINITION. One step of the machine is one engine cycle (`40_cycle.md` R100). -/

namespace Sys2Proof.Machine

/-- One step: the cycle of R112. -/
def step (s : State) : Host.Outcome State Fault Refusal := cycle s

/-- `s` with a table word stored where the next step fetches its instruction (log 11). -/
def State.withFetchWord (s : State) (_nbits w : Nat) : State :=
  s.readyToFetch.placeWord (BitVec.ofNat 16 w)

end Sys2Proof.Machine
end

