-- ==== Sys2Proof/Machine/Environment.lean ====
section
/-! DEFINITION. What the environment may do between cycles and what it sees: `60_exceptions.md` R192 to
R203, `70_reset_and_hazards.md` R210 to R214. No instruction calls these.
What R203 assumes never has no definition here (log 15), nor has snapshot and restore (log 17). -/

namespace Sys2Proof.Machine

/-- Reset (R210): every state element takes its reset value, also while halted (R189), and memory holds the
configured glyph table again. What comes from
outside is not the core's to reset: later draws stay fresh and the input provider's coming writes stay
its own (log 12). -/
def State.assertReset (s : State) : State :=
  { State.resetWith s.mem.glyphs with rndDraws := s.rndDraws, keyInputs := s.keyInputs }

/-- Why a program is not loaded. -/
inductive LoadError where
  /-- `RomTooLarge` (R184): reported at load time, state unchanged. Raised by `loadProgram` only. Safe. -/
  | romTooLarge
  deriving DecidableEq, Repr

/-- The loader (`20_memory.md` R54, R67): the image goes to 0x200 on, or nothing is written. The
environment calls it between reset and the first cycle (R212, D22; log 10). -/
def State.loadProgram (s : State) (image : List Byte) : Except LoadError State :=
  if Config.progBase + image.length > Config.memTop + 1 then .error .romTooLarge
  else .ok (s.setMem (s.mem.pokeList Config.progBase image))

/-- The launch state of a run (`70_reset_and_hazards.md` R212): reset, then the image, for the two arguments
that `00_scope.md` R5 gives a launch, the configured GLYPH_TABLE and PROGRAM. -/
def launch (g : GlyphTable) (image : List Byte) : Except LoadError State :=
  (State.resetWith g).loadProgram image

/-- The input provider sets the latch between two cycles (R193, R203). -/
def State.setKeys (s : State) (k : BitVec 16) : State := { s with keys := k }

/-- The 2-bit output `fault` (R180, `10_state.md` R30). -/
def FaultCode.bits : FaultCode → BitVec 2
  | .none => 0
  | .outOfBoundsMemory => 1
  | .stackOverflow => 2
  | .stackUnderflow => 3

/-- The output `tone_on = (ST != 0)` (R195). -/
def State.toneOn (s : State) : Bool := s.st != 0

/-- Bit `k` of the output `fb`: `FB[c, r]` with `k = r * 64 + c` (R194, R197). -/
def State.fbBit (s : State) (k : Nat) : Bool := s.pixel (k % 64) (k / 64)

/-- The output `unknown_opcode` (R185). -/
def State.unknownOpcode (s : State) : Bool := s.unknownIr.isSome

end Sys2Proof.Machine
end

