-- ==== Sys2Proof/Safety.lean ====
section
/-! DEFINITION. The terms claims are stated in: what a cycle executes, what a handler leaves unchanged,
the invariants of `10_state.md` R34, safe runs. -/

namespace Sys2Proof.Machine

/-! ### What a cycle executes -/

/-- The next cycle of `s` fetches a word that decodes to `i`. -/
def Executes (s : State) (i : Instr) : Prop := ∃ ir, s.fetch = some ir ∧ decode ir = i

/-- A run of `k` cycles with no fatal condition, from `s` to `t` (`92_eei_decisions.md` D8: a claim takes
`FAULT = None` at the end as a premise). -/
def SafeRun (k : Nat) (s t : State) : Prop := Host.Core.run core k s = .next t ∧ t.fault = .none

/-! ### Frames: what is the same in `s` and `t`, part by part -/

/-- Every register outside `D` is the same. -/
def SameRegsBut (D : RegId → Prop) (s t : State) : Prop := ∀ r, ¬ D r → t.reg r = s.reg r

/-- Every address reads as before. What the configured glyph table was is said apart (`SameConfig`). -/
def SameMemory (s t : State) : Prop := ∀ a, t.mem.read? a = s.mem.read? a

/-- Every address outside the `n` bytes from `a` on reads as before. -/
def SameMemoryBut (a n : Nat) (s t : State) : Prop :=
  ∀ b, ¬ (a ≤ b ∧ b < a + n) → t.mem.read? b = s.mem.read? b

/-- The configured glyph table is the same. -/
def SameConfig (s t : State) : Prop := t.mem.glyphs = s.mem.glyphs

/-- Depth and entries of the call stack are the same. -/
def SameStack (s t : State) : Prop := t.sp = s.sp ∧ t.stack = s.stack

/-- Both timers are the same. -/
def SameTimers (s t : State) : Prop := t.dt = s.dt ∧ t.st = s.st

/-- Every pixel is the same. -/
def SameDisplay (s t : State) : Prop := ∀ c r, c < 64 → r < 32 → t.pixel c r = s.pixel c r

/-- The input latch and the input provider's coming writes are the same. -/
def SameInputs (s t : State) : Prop := t.keys = s.keys ∧ t.keyInputs = s.keyInputs

/-- Latched fault and diagnostic output are the same. -/
def SameReports (s t : State) : Prop := t.fault = s.fault ∧ t.unknownIr = s.unknownIr

/-- Nothing but the program counter and the registers in `D` has changed. -/
structure OnlyRegsChange (D : RegId → Prop) (s t : State) : Prop where
  regs : SameRegsBut D s t
  index : t.i = s.i
  memory : SameMemory s t
  config : SameConfig s t
  stack : SameStack s t
  timers : SameTimers s t
  display : SameDisplay s t
  inputs : SameInputs s t
  draws : t.rndDraws = s.rndDraws
  reports : SameReports s t

/-- Nothing but the program counter has changed. -/
def OnlyPCChanges (s t : State) : Prop := OnlyRegsChange (fun _ => False) s t

/-! ### The draw of `44_display.md` R162, said without its loops -/

/-- The sprite of `n` rows at `I`, drawn from `(V[x] mod 64, V[y] mod 32)`, has a set bit on the pixel at
column `c`, row `r`: row `j` is the byte at `I + j`, its bit `7 - col` lies at column offset `col` (R160,
R162, R165). -/
def SpriteCovers (s : State) (x y : RegId) (n : Nat) (c r : Nat) : Prop :=
  ∃ j col b, j < n ∧ col < 8 ∧ s.mem.read? (s.blockBase + j) = some b ∧ b.getLsbD (7 - col) = true ∧
    c = ((s.reg x).toNat % 64 + col) % 64 ∧ r = ((s.reg y).toNat % 32 + j) % 32

/-! ### Invariants of reachable states (R34) -/

/-- `10_state.md` R34, and the canonical form of the model's memory (log 9). `SP` is at most 16 by its type. -/
structure Inv (s : State) : Prop where
  index_masked : s.i.toNat ≤ 0xFFF
  pc_bounded : s.pc.toNat ≤ 0x10FE
  live_entries : ∀ k (h : k < 16), k < s.sp.val → 0x002 ≤ s.stack[k].toNat ∧ s.stack[k].toNat ≤ 0x1000
  memory_canonical : s.mem.wf = true

/-- Two states, their memories canonical, that differ at most in the configured glyph table: memory reads
alike at every address and every other part is the same. -/
structure SameButConfig (s t : State) : Prop where
  rest : t = { s with mem := t.mem }
  reads : SameMemory s t
  canonical : s.mem.wf = true ∧ t.mem.wf = true

/-- Two states that differ at most in the dead stack entries (`10_state.md` R25, D19). -/
structure SameButDeadStack (s t : State) : Prop where
  rest : t = { s with stack := t.stack }
  live : ∀ k (h : k < 16), k < s.sp.val → t.stack[k] = s.stack[k]

end Sys2Proof.Machine
end

