-- ==== Sys2Proof/Certificates/Slice0/Obligations.lean ====
section
/-! DEFINITION. The statements for the provers. A per-instruction statement says the encoding of its
rule, that the instruction completes, its result, and its frame. "`OnlyPCChanges { s with f := t.f } t`"
reads: nothing but `PC` and the field `f` differs between `s` and `t`. Premises on `s.mem.wf` name the
invariant `Inv.memory_canonical`, which `StepKeepsInvariant` states (log 9). -/

open Sys2Proof Sys2Proof.Machine

/-! ### Reset, glyphs, loading -/

/-- R32: the state after reset, before any program is loaded, for every configured glyph table; the
machine's own reset state is the one with the default table. (The model's own fields are no part of it.) -/
def Obligations.ResetLeavesTheStatedValues : Prop :=
  (∀ (g : GlyphTable) (s : State), s = State.resetWith g →
    (∀ r, s.reg r = 0) ∧ s.i = 0 ∧ s.pc = 0x200 ∧ s.sp = 0 ∧ (∀ k (h : k < 16), s.stack[k] = 0) ∧
    s.dt = 0 ∧ s.st = 0 ∧ (∀ c r, c < 64 → r < 32 → s.pixel c r = false) ∧
    (∀ k, k < 16 → s.keys.getLsbD k = false) ∧ s.fault = .none ∧
    (∀ a (h : a < 0x50), s.mem.read? a = some g[a]) ∧
    (∀ a, 0x50 ≤ a → a ≤ 0xFFF → s.mem.read? a = some 0)) ∧
  State.reset = State.resetWith defaultGlyphs

/-- R53: the default font, digit by digit, as memory reads after reset of a machine configured with
`defaultGlyphs` (log 3). No other statement rests on these bytes. -/
def Obligations.GlyphsReadAsTheDefaultFont : Prop :=
  ∀ d (h : d < 16),
    (List.range 5).map (fun k => (State.resetWith defaultGlyphs).mem.read? (5 * d + k)) =
      (([[0xF0, 0x90, 0x90, 0x90, 0xF0], [0x20, 0x60, 0x20, 0x20, 0x70], [0xF0, 0x10, 0xF0, 0x80, 0xF0],
        [0xF0, 0x10, 0xF0, 0x10, 0xF0], [0x90, 0x90, 0xF0, 0x10, 0x10], [0xF0, 0x80, 0xF0, 0x10, 0xF0],
        [0xF0, 0x80, 0xF0, 0x90, 0xF0], [0xF0, 0x10, 0x20, 0x40, 0x40], [0xF0, 0x90, 0xF0, 0x90, 0xF0],
        [0xF0, 0x90, 0xF0, 0x10, 0xF0], [0xF0, 0x90, 0xF0, 0x90, 0x90], [0xE0, 0x90, 0xE0, 0x90, 0xE0],
        [0xF0, 0x80, 0x80, 0x80, 0xF0], [0xE0, 0x90, 0x90, 0x90, 0xE0], [0xF0, 0x80, 0xF0, 0x80, 0xF0],
        [0xF0, 0x80, 0xF0, 0x80, 0x80]] : List (List Byte))[d]'h).map some

/-- R54, R67, R184: an image of at most 0xE00 bytes is written at 0x200 on and nothing else changes; a
longer one is `RomTooLarge`. -/
def Obligations.LoaderWritesTheImageOrRefusesIt : Prop :=
  ∀ (s : State) (image : List Byte), s.mem.wf = true →
    (image.length ≤ 0xE00 → ∃ t, s.loadProgram image = .ok t ∧
      (∀ k (h : k < image.length), t.mem.read? (0x200 + k) = some image[k]) ∧
      SameMemoryBut 0x200 image.length s t ∧ t = { s with mem := t.mem }) ∧
    (0xE00 < image.length → s.loadProgram image = .error .romTooLarge)

/-- R110, R189: a halted core stays exactly as it is for any number of cycles; reset makes it run at 0x200. -/
def Obligations.HaltedCoreStaysHaltedUntilReset : Prop :=
  ∀ (s : State), s.fault ≠ .none →
    (∀ k, Host.Core.run core k s = .next s) ∧
    s.assertReset.fault = .none ∧ s.assertReset.pc = 0x200 ∧ (∀ r, s.assertReset.reg r = 0) ∧
    (∀ a, s.assertReset.mem.read? a = (State.resetWith s.mem.glyphs).mem.read? a)

/-! ### Encoding -/

/-- Vectors E1 to E18 of `95_test_vectors.md`. -/
def Obligations.VectorWordsDecodeAsListed : Prop :=
  decode 0x00E0 = .cls ∧ decode 0x00EE = .ret ∧ decode 0x0000 = .unknown 0x0000 ∧
  decode 0x01E0 = .unknown 0x01E0 ∧ decode 0x120C = .jp 0x20C ∧ decode 0x3A7F = .seImm 10 0x7F ∧
  decode 0x5120 = .seReg 1 2 ∧ decode 0x5127 = .seReg 1 2 ∧ decode 0x8AB4 = .addReg 10 11 ∧
  decode 0x8AB8 = .unknown 0x8AB8 ∧ decode 0x85F6 = .shr 5 ∧ decode 0x912F = .sneReg 1 2 ∧
  decode 0xD125 = .drw 1 2 5 ∧ decode 0xE59E = .skp 5 ∧ decode 0xE59F = .unknown 0xE59F ∧
  decode 0xF265 = .loadRegs 2 ∧ decode 0xF266 = .unknown 0xF266 ∧ decode 0xFFFF = .unknown 0xFFFF

/-- R85, R88: decode of encode is the instruction, for every well-formed instruction and operand, on
words and on the two bytes in memory order. -/
def Obligations.DecodeOfEncodeIsTheInstruction : Prop :=
  ∀ (i : Instr) (rest : List Byte), i.wf = true →
    decode (encode i) = i ∧ decodeBytes (encodeBytes i ++ rest) = .ok (i, rest)

/-- R88: the decoder selects exactly the row of spec/opcode_table.json whose mask and pattern the word
matches, and the 34 rows are pairwise disjoint. -/
def Obligations.DecodeFollowsTheOpcodeTable : Prop :=
  (∀ w : Word, (decode w).row = rowOfWord w) ∧
  opcodeRows.Pairwise (fun p q => ∀ w : Word, ¬ (w &&& p.mask = p.pattern ∧ w &&& q.mask = q.pattern))

/-- R89, R92: decoding is total, and a word is unknown exactly when R86 does not recognise it; what
decoding gives is well-formed. -/
def Obligations.UnknownExactlyWhenNotRecognised : Prop :=
  ∀ w : Word, (decode w = .unknown w ↔ recognised w = false) ∧ (decode w).wf = true ∧
    (∀ u, decode w = .unknown u → u = w)

/-- R87: the low nibble of the register skips and the `y` nibble of the shifts are ignored; a word is
its instruction's encoding in every other bit. -/
def Obligations.IgnoredBitsDoNotChangeDecoding : Prop :=
  (∀ (x y : RegId) (n : Nibble), decode (0x5#4 ++ x ++ y ++ n) = .seReg x y ∧
    decode (0x9#4 ++ x ++ y ++ n) = .sneReg x y ∧
    decode (0x8#4 ++ x ++ y ++ 0x6#4) = .shr x ∧ decode (0x8#4 ++ x ++ y ++ 0xE#4) = .shl x) ∧
  (∀ w : Word, encode (decode w) = w ∨ (∃ x y, decode w = .seReg x y ∨ decode w = .sneReg x y) ∨
    (∃ x, decode w = .shr x ∨ decode w = .shl x))

/-! ### The cycle -/

/-- R101, R56: the fetch reads two bytes, high byte first; past 0xFFE it faults, and nothing is decoded. -/
def Obligations.FetchIsBigEndianAndFaultsPastTheTop : Prop :=
  ∀ (s : State),
    (s.pc.toNat ≤ 0xFFE → ∃ hi lo, s.mem.read? s.pc.toNat = some hi ∧
      s.mem.read? (s.pc.toNat + 1) = some lo ∧
      ∃ ir : Word, s.fetch = some ir ∧ ir.toNat = hi.toNat * 256 + lo.toNat) ∧
    (0xFFE < s.pc.toNat → s.fault = .none → step s = .next { s with fault := .outOfBoundsMemory })

/-- R103 to R106: on a running core whose two bytes at `PC` decode to `i`, the step is `exec i` at that
state with the diagnostic cleared; if the handler raised nothing the timers tick on what it left and the
input provider's next write lands, else only `FAULT` changes. -/
def Obligations.StepRunsTheDecodedInstruction : Prop :=
  ∀ (s t : State) (hi lo : Byte) (rest : List Byte) (i : Instr), s.fault = .none →
    s.mem.read? s.pc.toNat = some hi → s.mem.read? (s.pc.toNat + 1) = some lo →
    decodeBytes (hi :: lo :: rest) = .ok (i, rest) → exec i { s with unknownIr := none } = .next t →
    (t.fault = .none → ∃ u, step s = .next u ∧
      u.dt.toNat = t.dt.toNat - 1 ∧ u.st.toNat = t.st.toNat - 1 ∧
      u.keys = s.keyInputs.headD t.keys ∧ u.keyInputs = s.keyInputs.tail ∧
      u = { t with dt := u.dt, st := u.st, keys := u.keys, keyInputs := u.keyInputs }) ∧
    (t.fault ≠ .none → step s = .next { s with fault := t.fault })

/-- R100, R109, R110, R188: a cycle always answers a next state: a completed one, or one that differs
from the start in `FAULT` alone, or, of a halted core, the same state. -/
def Obligations.EveryCycleCompletesFaultsPreciselyOrIsHalted : Prop :=
  ∀ (s : State), ∃ t, step s = .next t ∧
    ((s.fault = .none ∧ t.fault = .none) ∨
     (s.fault = .none ∧ t.fault ≠ .none ∧ t = { s with fault := t.fault }) ∨
     (s.fault ≠ .none ∧ t = s))

/-- R181: the causes of `OutOfBoundsMemory`, exhaustively. -/
def Obligations.OutOfBoundsMemoryHasExactlyFiveCauses : Prop :=
  ∀ (s t : State), s.fault = .none → step s = .next t →
    (t.fault = .outOfBoundsMemory ↔
      0xFFE < s.pc.toNat ∨
      (∃ x y n, Executes s (.drw x y n) ∧ 0 < n.toNat ∧ 0xFFF < s.i.toNat + n.toNat - 1) ∨
      (∃ x, Executes s (.ldB x) ∧ 0xFFF < s.i.toNat + 2) ∨
      (∃ x, Executes s (.storeRegs x) ∧ 0xFFF < s.i.toNat + x.toNat) ∨
      (∃ x, Executes s (.loadRegs x) ∧ 0xFFF < s.i.toNat + x.toNat))

/-- R182, R183: `StackOverflow` is `CALL` at depth 16, `StackUnderflow` is `RET` at depth 0, and nothing else. -/
def Obligations.StackFaultsHaveExactlyOneCauseEach : Prop :=
  ∀ (s t : State), s.fault = .none → step s = .next t →
    (t.fault = .stackOverflow ↔ (∃ nnn, Executes s (.call nnn)) ∧ s.sp.val = 16) ∧
    (t.fault = .stackUnderflow ↔ Executes s .ret ∧ s.sp.val = 0)

/-- R106: both timers fall by one, never below 0, in every completed cycle, on the value the handler
left; they do not tick in a faulting cycle or while halted; `LD Vx, DT` reads the value before the tick. -/
def Obligations.TimersTickOncePerCompletedCycle : Prop :=
  ∀ (s t : State), step s = .next t →
    (s.fault = .none → t.fault = .none →
      (∀ x, Executes s (.ldDTVx x) → t.dt.toNat = (s.reg x).toNat - 1) ∧
      ((∀ x, ¬ Executes s (.ldDTVx x)) → t.dt.toNat = s.dt.toNat - 1) ∧
      (∀ x, Executes s (.ldSTVx x) → t.st.toNat = (s.reg x).toNat - 1) ∧
      ((∀ x, ¬ Executes s (.ldSTVx x)) → t.st.toNat = s.st.toNat - 1) ∧
      (∀ x, Executes s (.ldVxDT x) → t.reg x = s.dt)) ∧
    (t.fault ≠ .none → SameTimers s t)

/-- R177, R218: over a run that completes every cycle and executes no `LD DT, Vx`, the delay timer falls
by the number of cycles, down to 0. -/
def Obligations.DelayTimerCountsCycles : Prop :=
  ∀ (k : Nat) (s t : State), SafeRun k s t →
    (∀ m u, m < k → Host.Core.run core m s = .next u → ∀ x, ¬ Executes u (.ldDTVx x)) →
    t.dt.toNat = s.dt.toNat - k

/-- R185: the diagnostic output after a completed cycle is the word it executed when that is unknown, else
nothing. (That a faulting or halted cycle keeps the last one is the model's choice, log 8.) -/
def Obligations.DiagnosticReportsTheUnknownWord : Prop :=
  ∀ (s t : State) (ir : Word), s.fault = .none → s.fetch = some ir → step s = .next t → t.fault = .none →
    t.unknownIr = if recognised ir then none else some ir

/-- R28, R193 (the form of the environment's writes is the model's choice, log 7): no instruction writes
the latch; between cycles it takes the input provider's next write, if there is one. -/
def Obligations.LatchIsWrittenByTheEnvironmentOnly : Prop :=
  (∀ (i : Instr) (s t : State), exec i s = .next t → t.keys = s.keys ∧ t.keyInputs = s.keyInputs) ∧
  (∀ (s t : State), step s = .next t → t.fault = .none →
    t.keys = s.keyInputs.headD s.keys ∧ t.keyInputs = s.keyInputs.tail)

/-! ### Control flow -/

/-- R121. -/
def Obligations.RetPopsOrUnderflows : Prop :=
  decode 0x00EE = .ret ∧ ∀ (s : State),
    (0 < s.sp.val → ∃ t, exec .ret s = .next t ∧ s.stack[s.sp.val - 1]? = some t.pc ∧
      t.sp.val = s.sp.val - 1 ∧ OnlyPCChanges { s with sp := t.sp } t) ∧
    (s.sp.val = 0 → exec .ret s = .next { s with fault := .stackUnderflow })

/-- R122, R128: the target is assigned, not checked and not masked. -/
def Obligations.JumpsAssignTheirTargets : Prop :=
  ∀ (nnn : Addr12) (s : State),
    decode (0x1#4 ++ nnn) = .jp nnn ∧ decode (0xB#4 ++ nnn) = .jpV0 nnn ∧
    (∃ t, exec (.jp nnn) s = .next t ∧ t.pc.toNat = nnn.toNat ∧ OnlyPCChanges s t) ∧
    (∃ t, exec (.jpV0 nnn) s = .next t ∧ t.pc.toNat = nnn.toNat + (s.reg V0).toNat ∧ OnlyPCChanges s t)

/-- R123. -/
def Obligations.CallPushesOrOverflows : Prop :=
  ∀ (nnn : Addr12) (s : State), decode (0x2#4 ++ nnn) = .call nnn ∧
    (s.sp.val < 16 → ∃ t, exec (.call nnn) s = .next t ∧ t.pc.toNat = nnn.toNat ∧
      t.stack[s.sp.val]? = some (s.pc + 2) ∧ t.sp.val = s.sp.val + 1 ∧
      (∀ k, k ≠ s.sp.val → t.stack[k]? = s.stack[k]?) ∧
      OnlyPCChanges { s with sp := t.sp, stack := t.stack } t) ∧
    (s.sp.val = 16 → exec (.call nnn) s = .next { s with fault := .stackOverflow })

/-- A `CALL` followed by a `RET` executed in the state it left resumes after the `CALL`, at the depth
before it, with the live entries as they were (R121, R123). -/
def Obligations.RetAfterCallResumesAfterTheCall : Prop :=
  ∀ (nnn : Addr12) (s t : State), s.sp.val < 16 → exec (.call nnn) s = .next t →
    ∃ u, exec .ret t = .next u ∧ u.pc = s.pc + 2 ∧ u.sp = s.sp ∧
      (∀ k, k < s.sp.val → u.stack[k]? = s.stack[k]?) ∧
      OnlyPCChanges { s with stack := u.stack } u

/-- R124, R125. -/
def Obligations.SkipsOnImmediate : Prop :=
  ∀ (x : RegId) (nn : Byte) (s : State),
    decode (0x3#4 ++ x ++ nn) = .seImm x nn ∧ decode (0x4#4 ++ x ++ nn) = .sneImm x nn ∧
    (∃ t, exec (.seImm x nn) s = .next t ∧ OnlyPCChanges s t ∧
      t.pc = if s.reg x = nn then s.pc + 4 else s.pc + 2) ∧
    (∃ t, exec (.sneImm x nn) s = .next t ∧ OnlyPCChanges s t ∧
      t.pc = if s.reg x = nn then s.pc + 2 else s.pc + 4)

/-- R126, R127. -/
def Obligations.SkipsOnRegister : Prop :=
  ∀ (x y : RegId) (n : Nibble) (s : State),
    decode (0x5#4 ++ x ++ y ++ n) = .seReg x y ∧ decode (0x9#4 ++ x ++ y ++ n) = .sneReg x y ∧
    (∃ t, exec (.seReg x y) s = .next t ∧ OnlyPCChanges s t ∧
      t.pc = if s.reg x = s.reg y then s.pc + 4 else s.pc + 2) ∧
    (∃ t, exec (.sneReg x y) s = .next t ∧ OnlyPCChanges s t ∧
      t.pc = if s.reg x = s.reg y then s.pc + 2 else s.pc + 4)

/-! ### Register arithmetic and logic -/

/-- R132, R133: no flag; with `x = 15` `VF` is the plain destination. -/
def Obligations.LoadAndAddImmediate : Prop :=
  ∀ (x : RegId) (nn : Byte) (s : State),
    decode (0x6#4 ++ x ++ nn) = .ldImm x nn ∧ decode (0x7#4 ++ x ++ nn) = .addImm x nn ∧
    (∃ t, exec (.ldImm x nn) s = .next t ∧ t.reg x = nn ∧ t.pc = s.pc + 2 ∧
      OnlyRegsChange (fun r => r = x) s t) ∧
    (∃ t, exec (.addImm x nn) s = .next t ∧
      (t.reg x).toNat = ((s.reg x).toNat + nn.toNat) % 256 ∧ t.pc = s.pc + 2 ∧
      OnlyRegsChange (fun r => r = x) s t)

/-- R134 to R137, R131: assign, OR, AND, XOR, bit by bit; `VF` is not cleared. -/
def Obligations.AssignAndLogicLeaveTheFlagAlone : Prop :=
  ∀ (x y : RegId) (s : State),
    decode (0x8#4 ++ x ++ y ++ 0x0#4) = .ldReg x y ∧ decode (0x8#4 ++ x ++ y ++ 0x1#4) = .orReg x y ∧
    decode (0x8#4 ++ x ++ y ++ 0x2#4) = .andReg x y ∧ decode (0x8#4 ++ x ++ y ++ 0x3#4) = .xorReg x y ∧
    (∃ t, exec (.ldReg x y) s = .next t ∧ t.reg x = s.reg y ∧ t.pc = s.pc + 2 ∧
      OnlyRegsChange (fun r => r = x) s t) ∧
    (∃ t, exec (.orReg x y) s = .next t ∧ t.pc = s.pc + 2 ∧ OnlyRegsChange (fun r => r = x) s t ∧
      ∀ b, b < 8 → (t.reg x).getLsbD b = ((s.reg x).getLsbD b || (s.reg y).getLsbD b)) ∧
    (∃ t, exec (.andReg x y) s = .next t ∧ t.pc = s.pc + 2 ∧ OnlyRegsChange (fun r => r = x) s t ∧
      ∀ b, b < 8 → (t.reg x).getLsbD b = ((s.reg x).getLsbD b && (s.reg y).getLsbD b)) ∧
    (∃ t, exec (.xorReg x y) s = .next t ∧ t.pc = s.pc + 2 ∧ OnlyRegsChange (fun r => r = x) s t ∧
      ∀ b, b < 8 → (t.reg x).getLsbD b = ((s.reg x).getLsbD b ^^ (s.reg y).getLsbD b))

/-- R138, R130: the sum mod 256, then the carry out in `VF`, which survives when `x = 15`. -/
def Obligations.AddWritesSumThenCarry : Prop :=
  ∀ (x y : RegId) (s : State), decode (0x8#4 ++ x ++ y ++ 0x4#4) = .addReg x y ∧
    ∃ t, exec (.addReg x y) s = .next t ∧ t.pc = s.pc + 2 ∧
      OnlyRegsChange (fun r => r = x ∨ r = VF) s t ∧
      (x ≠ VF → (t.reg x).toNat = ((s.reg x).toNat + (s.reg y).toNat) % 256) ∧
      (t.reg VF = if 255 < (s.reg x).toNat + (s.reg y).toNat then 1 else 0)

/-- R139, R141, R130: the difference mod 256, then 1 in `VF` exactly when strictly greater. -/
def Obligations.SubtractionsWriteDifferenceThenStrictFlag : Prop :=
  ∀ (x y : RegId) (s : State),
    decode (0x8#4 ++ x ++ y ++ 0x5#4) = .subReg x y ∧ decode (0x8#4 ++ x ++ y ++ 0x7#4) = .subnReg x y ∧
    (∃ t, exec (.subReg x y) s = .next t ∧ t.pc = s.pc + 2 ∧
      OnlyRegsChange (fun r => r = x ∨ r = VF) s t ∧
      (x ≠ VF → ((t.reg x).toNat : Int) = (((s.reg x).toNat : Int) - (s.reg y).toNat) % 256) ∧
      (t.reg VF = if (s.reg y).toNat < (s.reg x).toNat then 1 else 0)) ∧
    (∃ t, exec (.subnReg x y) s = .next t ∧ t.pc = s.pc + 2 ∧
      OnlyRegsChange (fun r => r = x ∨ r = VF) s t ∧
      (x ≠ VF → ((t.reg x).toNat : Int) = (((s.reg y).toNat : Int) - (s.reg x).toNat) % 256) ∧
      (t.reg VF = if (s.reg x).toNat < (s.reg y).toNat then 1 else 0))

/-- R140, R142, R130: shift by one, the bit shifted out in `VF`; the `y` field is ignored. -/
def Obligations.ShiftsMoveTheBoundaryBitIntoVF : Prop :=
  ∀ (x y : RegId) (s : State),
    decode (0x8#4 ++ x ++ y ++ 0x6#4) = .shr x ∧ decode (0x8#4 ++ x ++ y ++ 0xE#4) = .shl x ∧
    (∃ t, exec (.shr x) s = .next t ∧ t.pc = s.pc + 2 ∧
      OnlyRegsChange (fun r => r = x ∨ r = VF) s t ∧
      (x ≠ VF → (t.reg x).toNat = (s.reg x).toNat / 2) ∧ (t.reg VF).toNat = (s.reg x).toNat % 2) ∧
    (∃ t, exec (.shl x) s = .next t ∧ t.pc = s.pc + 2 ∧
      OnlyRegsChange (fun r => r = x ∨ r = VF) s t ∧
      (x ≠ VF → (t.reg x).toNat = (s.reg x).toNat * 2 % 256) ∧ (t.reg VF).toNat = (s.reg x).toNat / 128)

/-- R143: the byte `r` is the free value of this draw, each draw takes the next one, and nothing is said
of its value (log 6). -/
def Obligations.RandomByteIsMasked : Prop :=
  ∀ (x : RegId) (nn : Byte) (s : State), decode (0xC#4 ++ x ++ nn) = .rnd x nn ∧
    ∃ t r, exec (.rnd x nn) s = .next t ∧ r = Config.randomByte s.rndDraws ∧
      (∀ b, b < 8 → (t.reg x).getLsbD b = (r.getLsbD b && nn.getLsbD b)) ∧ t.reg x &&& ~~~nn = 0 ∧
      t.pc = s.pc + 2 ∧ t.rndDraws = s.rndDraws + 1 ∧
      OnlyRegsChange (fun r => r = x) { s with rndDraws := t.rndDraws } t

/-- R22: the six instructions that overwrite `VF` and the value they leave; every other instruction
leaves `VF` unless it is the plain destination. A `DRW` past the top of memory faults and leaves it.
`VF` is 0 after reset. -/
def Obligations.ExactlySixInstructionsOverwriteTheFlag : Prop :=
  State.reset.reg VF = 0 ∧ ∀ (i : Instr) (s t : State), exec i s = .next t →
    match i with
    | .addReg x y => t.reg VF = if 255 < (s.reg x).toNat + (s.reg y).toNat then 1 else 0
    | .subReg x y => t.reg VF = if (s.reg y).toNat < (s.reg x).toNat then 1 else 0
    | .shr x => t.reg VF = if (s.reg x).getLsbD 0 then 1 else 0
    | .subnReg x y => t.reg VF = if (s.reg x).toNat < (s.reg y).toNat then 1 else 0
    | .shl x => t.reg VF = if (s.reg x).getLsbD 7 then 1 else 0
    | .drw _ _ n =>
      if n.toNat = 0 ∨ s.i.toNat + n.toNat - 1 ≤ 0xFFF then
        (t.reg VF = 0 ∨ t.reg VF = 1) ∧
        (t.reg VF = 1 ↔ ∃ c r, c < 64 ∧ r < 32 ∧ s.pixel c r = true ∧ t.pixel c r = false)
      else t.reg VF = s.reg VF
    | .ldImm x _ | .addImm x _ | .ldReg x _ | .orReg x _ | .andReg x _ | .xorReg x _ | .rnd x _
    | .ldVxDT x | .ldVxK x | .loadRegs x => x ≠ VF → t.reg VF = s.reg VF
    | _ => t.reg VF = s.reg VF

/-! ### Index register and memory -/

/-- R152 to R154: the three writes of `I`, each at most 0xFFF; no flag. -/
def Obligations.IndexWritesAreMasked : Prop :=
  ∀ (nnn : Addr12) (x : RegId) (s : State),
    decode (0xA#4 ++ nnn) = .ldI nnn ∧ decode (0xF#4 ++ x ++ 0x1E#8) = .addI x ∧
    decode (0xF#4 ++ x ++ 0x29#8) = .ldF x ∧
    (∃ t, exec (.ldI nnn) s = .next t ∧ t.i.toNat = nnn.toNat ∧ t.pc = s.pc + 2 ∧
      OnlyPCChanges { s with i := t.i } t) ∧
    (∃ t, exec (.addI x) s = .next t ∧ t.i.toNat = (s.i.toNat + (s.reg x).toNat) % 4096 ∧
      t.pc = s.pc + 2 ∧ OnlyPCChanges { s with i := t.i } t) ∧
    (∃ t, exec (.ldF x) s = .next t ∧ t.i.toNat = (s.reg x).toNat * 5 ∧ t.pc = s.pc + 2 ∧
      OnlyPCChanges { s with i := t.i } t)

/-- R155: three decimal digits at `I`, hundreds first, or nothing at all. -/
def Obligations.BcdStoresThreeDigits : Prop :=
  ∀ (x : RegId) (s : State), s.mem.wf = true → decode (0xF#4 ++ x ++ 0x33#8) = .ldB x ∧
    (s.blockBase + 2 ≤ 0xFFF → ∃ t h d u, exec (.ldB x) s = .next t ∧
      t.mem.read? s.blockBase = some h ∧ t.mem.read? (s.blockBase + 1) = some d ∧
      t.mem.read? (s.blockBase + 2) = some u ∧
      h.toNat ≤ 2 ∧ d.toNat ≤ 9 ∧ u.toNat ≤ 9 ∧
      (s.reg x).toNat = 100 * h.toNat + 10 * d.toNat + u.toNat ∧
      t.pc = s.pc + 2 ∧ SameMemoryBut s.blockBase 3 s t ∧ OnlyPCChanges { s with mem := t.mem } t) ∧
    (0xFFF < s.blockBase + 2 → exec (.ldB x) s = .next { s with fault := .outOfBoundsMemory })

/-- R156: `V[0]` to `V[x]` at `I` on, or nothing at all; `I` and the registers are unchanged. -/
def Obligations.RegisterDumpStoresTheBlock : Prop :=
  ∀ (x : RegId) (s : State), s.mem.wf = true → decode (0xF#4 ++ x ++ 0x55#8) = .storeRegs x ∧
    (s.blockBase + x.toNat ≤ 0xFFF → ∃ t, exec (.storeRegs x) s = .next t ∧
      (∀ k : RegId, k.toNat ≤ x.toNat → t.mem.read? (s.blockBase + k.toNat) = some (s.reg k)) ∧
      t.pc = s.pc + 2 ∧ SameMemoryBut s.blockBase (x.toNat + 1) s t ∧
      OnlyPCChanges { s with mem := t.mem } t) ∧
    (0xFFF < s.blockBase + x.toNat →
      exec (.storeRegs x) s = .next { s with fault := .outOfBoundsMemory })

/-- R157: `V[0]` to `V[x]` from `I` on, or nothing at all; registers above `x` are unchanged. -/
def Obligations.RegisterLoadReadsTheBlock : Prop :=
  ∀ (x : RegId) (s : State), decode (0xF#4 ++ x ++ 0x65#8) = .loadRegs x ∧
    (s.blockBase + x.toNat ≤ 0xFFF → ∃ t, exec (.loadRegs x) s = .next t ∧
      (∀ k : RegId, k.toNat ≤ x.toNat → s.mem.read? (s.blockBase + k.toNat) = some (t.reg k)) ∧
      t.pc = s.pc + 2 ∧ OnlyRegsChange (fun r => r.toNat ≤ x.toNat) s t) ∧
    (0xFFF < s.blockBase + x.toNat →
      exec (.loadRegs x) s = .next { s with fault := .outOfBoundsMemory })

/-- R156, R157, R151: a dump followed by a load of the same registers, executed in the state it left,
gives every register back. -/
def Obligations.LoadAfterDumpRestoresTheRegisters : Prop :=
  ∀ (x : RegId) (s : State), s.mem.wf = true → s.blockBase + x.toNat ≤ 0xFFF →
    ∃ t u, exec (.storeRegs x) s = .next t ∧ exec (.loadRegs x) t = .next u ∧
      (∀ r, u.reg r = s.reg r) ∧ OnlyPCChanges t u

/-- R65: bytes a `LD [I], Vx` stored are what a later fetch at their address reads, with nothing between. -/
def Obligations.StoresAreSeenByTheNextFetch : Prop :=
  ∀ (x k l : RegId) (s t : State), s.mem.wf = true → s.fault = .none → Executes s (.storeRegs x) →
    step s = .next t → t.fault = .none → l.toNat = k.toNat + 1 → l.toNat ≤ x.toNat →
    ({ t with pc := s.i + k.setWidth 16 }).fetch = some (s.reg k ++ s.reg l)

/-- The model's memory is canonical (log 9): two canonical memories of machines with one glyph table that
read alike at every address are the same data. -/
def Obligations.CanonicalMemoriesThatReadAlikeAreEqual : Prop :=
  ∀ (m m' : Memory), m.glyphs = m'.glyphs → m.wf = true → m'.wf = true → (∀ a, m.read? a = m'.read? a) → m = m'

/-! ### Display -/

/-- R161. -/
def Obligations.ClearTurnsEveryPixelOff : Prop :=
  decode 0x00E0 = .cls ∧ ∀ (s : State), ∃ t, exec .cls s = .next t ∧
    (∀ c r, c < 64 → r < 32 → t.pixel c r = false) ∧ t.pc = s.pc + 2 ∧
    OnlyPCChanges { s with fb := t.fb } t

/-- R162, R166: `DRW` flips exactly the pixels the sprite covers, wrapping on both axes; `VF` is 1 exactly
when a covered pixel was on; or the whole draw faults. -/
def Obligations.DrawXorsTheSpriteAndReportsCollision : Prop :=
  ∀ (x y : RegId) (n : Nibble) (s : State), decode (0xD#4 ++ x ++ y ++ n) = .drw x y n ∧
    (n.toNat = 0 ∨ s.blockBase + n.toNat - 1 ≤ 0xFFF → ∃ t, exec (.drw x y n) s = .next t ∧
      (∀ c r, c < 64 → r < 32 → SpriteCovers s x y n.toNat c r → t.pixel c r = !s.pixel c r) ∧
      (∀ c r, c < 64 → r < 32 → ¬ SpriteCovers s x y n.toNat c r → t.pixel c r = s.pixel c r) ∧
      ((∃ c r, c < 64 ∧ r < 32 ∧ SpriteCovers s x y n.toNat c r ∧ s.pixel c r = true) → t.reg VF = 1) ∧
      ((∀ c r, c < 64 → r < 32 → SpriteCovers s x y n.toNat c r → s.pixel c r = false) → t.reg VF = 0) ∧
      t.pc = s.pc + 2 ∧ OnlyRegsChange (fun r => r = VF) { s with fb := t.fb } t) ∧
    (0 < n.toNat → 0xFFF < s.blockBase + n.toNat - 1 →
      exec (.drw x y n) s = .next { s with fault := .outOfBoundsMemory })

/-- R164: the same draw twice at the same place restores the framebuffer, and the second one leaves
`VF = 1` whenever the sprite has a set bit on a pixel that was off before the first. -/
def Obligations.DrawingTwiceRestoresTheFramebuffer : Prop :=
  ∀ (x y : RegId) (n : Nibble) (s t : State), n.toNat = 0 ∨ s.blockBase + n.toNat - 1 ≤ 0xFFF →
    exec (.drw x y n) s = .next t → t.reg x = s.reg x → t.reg y = s.reg y →
    ∃ u, exec (.drw x y n) t = .next u ∧
      (∀ c r, c < 64 → r < 32 → u.pixel c r = s.pixel c r) ∧
      ((∃ c r, c < 64 ∧ r < 32 ∧ SpriteCovers s x y n.toNat c r ∧ s.pixel c r = false) → u.reg VF = 1)

/-- The output `fb` is row-major: bit `r * 64 + c` is `FB[c, r]` (R194, R197). -/
def Obligations.DisplayOutputIsRowMajor : Prop :=
  ∀ (s : State) (c r : Nat), c < 64 → r < 32 → s.fbBit (r * 64 + c) = s.pixel c r

/-! ### Keys and timers -/

/-- R171, R172, R170: the key is the low nibble of `V[x]`. -/
def Obligations.KeySkipsTestTheLowNibbleKey : Prop :=
  ∀ (x : RegId) (s : State),
    decode (0xE#4 ++ x ++ 0x9E#8) = .skp x ∧ decode (0xE#4 ++ x ++ 0xA1#8) = .sknp x ∧
    (∃ t, exec (.skp x) s = .next t ∧ OnlyPCChanges s t ∧
      t.pc = if s.keys.getLsbD ((s.reg x).toNat % 16) then s.pc + 4 else s.pc + 2) ∧
    (∃ t, exec (.sknp x) s = .next t ∧ OnlyPCChanges s t ∧
      t.pc = if s.keys.getLsbD ((s.reg x).toNat % 16) then s.pc + 2 else s.pc + 4)

/-- R174: with no key down the instruction is rewound; else `V[x]` takes the lowest key down. -/
def Obligations.WaitForKeyTakesTheLowestKey : Prop :=
  ∀ (x : RegId) (s : State), decode (0xF#4 ++ x ++ 0x0A#8) = .ldVxK x ∧
    (s.keys = 0 → ∃ t, exec (.ldVxK x) s = .next t ∧ t.pc = s.pc ∧ OnlyPCChanges s t) ∧
    (s.keys ≠ 0 → ∃ t k, exec (.ldVxK x) s = .next t ∧ k < 16 ∧ s.keys.getLsbD k = true ∧
      (∀ l, l < k → s.keys.getLsbD l = false) ∧ (t.reg x).toNat = k ∧ t.pc = s.pc + 2 ∧
      OnlyRegsChange (fun r => r = x) s t)

/-- R174 (a), R221: a core that waits for a key with none down, and no key coming, stays on the
instruction for any number of cycles; only its timers fall. -/
def Obligations.WaitingForAKeyOnlyTicksTheTimers : Prop :=
  ∀ (k : Nat) (x : RegId) (s : State), s.fault = .none → Executes s (.ldVxK x) →
    (∀ q ∈ s.keys :: s.keyInputs, q = 0) →
    ∃ t, Host.Core.run core k s = .next t ∧ t.fault = .none ∧ t.pc = s.pc ∧ (∀ r, t.reg r = s.reg r) ∧
      t.dt.toNat = s.dt.toNat - k ∧ t.st.toNat = s.st.toNat - k ∧ t.mem = s.mem ∧ t.i = s.i ∧
      t.fb = s.fb ∧ SameStack s t

/-- R173, R175, R176: the moves to and from the timers, before the tick of the same cycle (R177). -/
def Obligations.TimerMoves : Prop :=
  ∀ (x : RegId) (s : State),
    decode (0xF#4 ++ x ++ 0x07#8) = .ldVxDT x ∧ decode (0xF#4 ++ x ++ 0x15#8) = .ldDTVx x ∧
    decode (0xF#4 ++ x ++ 0x18#8) = .ldSTVx x ∧
    (∃ t, exec (.ldVxDT x) s = .next t ∧ t.reg x = s.dt ∧ t.pc = s.pc + 2 ∧
      OnlyRegsChange (fun r => r = x) s t) ∧
    (∃ t, exec (.ldDTVx x) s = .next t ∧ t.dt = s.reg x ∧ t.pc = s.pc + 2 ∧
      OnlyPCChanges { s with dt := t.dt } t) ∧
    (∃ t, exec (.ldSTVx x) s = .next t ∧ t.st = s.reg x ∧ t.pc = s.pc + 2 ∧
      OnlyPCChanges { s with st := t.st } t)

/-! ### Unknown words -/

/-- R107: an unknown word is a no-op with a diagnostic, and its cycle completes with a tick of the timers. -/
def Obligations.UnknownWordIsANoOpWithADiagnostic : Prop :=
  ∀ (ir : Word) (s : State),
    (∃ t, exec (.unknown ir) s = .next t ∧ t.pc = s.pc + 2 ∧ t.unknownIr = some ir ∧
      OnlyPCChanges { s with unknownIr := t.unknownIr } t) ∧
    (s.fault = .none → s.fetch = some ir → recognised ir = false →
      ∃ t, step s = .next t ∧ t.fault = .none ∧ t.pc = s.pc + 2 ∧ t.unknownIr = some ir ∧
        t.dt.toNat = s.dt.toNat - 1 ∧ t.st.toNat = s.st.toNat - 1 ∧ SameRegsBut (fun _ => False) s t ∧
        t.i = s.i ∧ SameMemory s t ∧ SameStack s t ∧ SameDisplay s t)

/-! ### Whole-machine rules -/

/-- Which instructions may change each special part of the state: the registers of R33, memory (R58), the
framebuffer (R27), the diagnostic (R107, R185; that the model keeps it in State is its choice, log 8) and
the model's own counter of random bytes (R143; its choice, log 6). -/
def Obligations.EachPartHasOnlyItsWriters : Prop :=
  ∀ (i : Instr) (s t : State), exec i s = .next t →
    (t.i ≠ s.i → (∃ nnn, i = .ldI nnn) ∨ (∃ x, i = .addI x) ∨ ∃ x, i = .ldF x) ∧
    (¬ SameStack s t → i = .ret ∨ ∃ nnn, i = .call nnn) ∧
    (t.dt ≠ s.dt → ∃ x, i = .ldDTVx x) ∧ (t.st ≠ s.st → ∃ x, i = .ldSTVx x) ∧
    (¬ SameMemory s t → (∃ x, i = .ldB x) ∨ ∃ x, i = .storeRegs x) ∧
    (¬ SameDisplay s t → i = .cls ∨ ∃ x y n, i = .drw x y n) ∧
    (t.unknownIr ≠ s.unknownIr → ∃ ir, i = .unknown ir) ∧
    (t.rndDraws ≠ s.rndDraws → ∃ x nn, i = .rnd x nn) ∧
    (t.pc ≠ s.pc + 2 → s.fault = .none → t.fault = .none → i = .ret ∨ (∃ nnn, i = .jp nnn ∨ i = .call nnn ∨ i = .jpV0 nnn) ∨
      (∃ x nn, i = .seImm x nn ∨ i = .sneImm x nn) ∨ (∃ x y, i = .seReg x y ∨ i = .sneReg x y) ∨
      ∃ x, i = .skp x ∨ i = .sknp x ∨ i = .ldVxK x)

/-- A word placed for the next fetch is the instruction the next step runs (the model's interface, log 11). -/
def Obligations.PlacedWordIsTheNextInstruction : Prop :=
  ∀ (s : State) (nbits w : Nat) (i : Instr), s.mem.wf = true → decodeTableWord nbits w = some i →
    (s.withFetchWord nbits w).fault = .none ∧ Executes (s.withFetchWord nbits w) i ∧
    (s.fault = .none → s.pc.toNat ≤ 0xFFE →
      s.withFetchWord nbits w = { s with mem := (s.withFetchWord nbits w).mem })

/-- R34 holds after reset, and after reset with a program loaded, for every glyph table. -/
def Obligations.LaunchStatesMeetTheInvariant : Prop :=
  Inv State.reset ∧ ∀ (g : GlyphTable), Inv (State.resetWith g) ∧
    ∀ (image : List Byte) (t : State), launch g image = .ok t → Inv t

/-- R34: every cycle keeps the invariant: `I` at most 0xFFF, `PC` at most 0x10FE, every live stack entry
in 0x002 to 0x1000, memory canonical. -/
def Obligations.StepKeepsInvariant : Prop :=
  ∀ (s t : State), Inv s → step s = .next t → Inv t

/-- R25, D19: dead stack entries are unobservable: two states that differ only in them step to states
that differ only in them. -/
def Obligations.DeadStackEntriesAreUnobservable : Prop :=
  ∀ (s s' t t' : State), SameButDeadStack s s' → step s = .next t → step s' = .next t' →
    SameButDeadStack t t'

/-! ### Configuration -/

/-- GLYPH_TABLE is configuration (R5, R53, R210; `93_implementation_defined.md` U11; log 3): reset fills
0x000 to 0x04F with whatever table the machine is configured with, also after a program overwrote them;
no instruction, no step, no load and no reset changes the configured table. -/
def Obligations.GlyphTableIsConfiguration : Prop :=
  (∀ (g : GlyphTable), SameConfig (State.resetWith g) (State.resetWith g).assertReset ∧
    (State.resetWith g).mem.glyphs = g ∧
    ∀ k (h : k < 80), (State.resetWith g).mem.read? k = some g[k]) ∧
  (∀ (i : Instr) (s t : State), exec i s = .next t → SameConfig s t) ∧
  (∀ (s t : State), step s = .next t → SameConfig s t) ∧
  (∀ (s t : State) (image : List Byte), s.loadProgram image = .ok t → SameConfig s t) ∧
  (∀ (s : State), SameConfig s s.assertReset ∧
    ∀ k (h : k < 80), s.assertReset.mem.read? k = some s.mem.glyphs[k])

/-- The configured table is seen through memory only (R52, R60: after reset it is ordinary memory): two
machines that differ in the table and in nothing a read of memory shows step to states that do the same. -/
def Obligations.TableIsSeenThroughMemoryOnly : Prop :=
  ∀ (s s' t t' : State), SameButConfig s s' → step s = .next t → step s' = .next t' → SameButConfig t t'
end

