-- ==== Sys2Proof/Laws/Decode.lean ====
section
/-! SUPPORT. The fields of a word laid out in a format of `30_encoding.md` R83, the bytes of a word, and
a word as its four nibbles. -/

namespace Sys2Proof

/-! ### Format NNN -/

theorem getLsbD_encNNN (op : Nibble) (nnn : Addr12) (i : Nat) :
    (encNNN op nnn).getLsbD i = if i < 12 then nnn.getLsbD i else op.getLsbD (i - 12) :=
  BitVec.getLsbD_append

@[simp] theorem opField_encNNN (op : Nibble) (nnn : Addr12) : opField (encNNN op nnn) = op := by
  refine BitVec.eq_of_getLsbD_eq fun i hi => ?_
  simp [opField, getLsbD_encNNN, hi]

@[simp] theorem nnnField_encNNN (op : Nibble) (nnn : Addr12) : nnnField (encNNN op nnn) = nnn := by
  refine BitVec.eq_of_getLsbD_eq fun i hi => ?_
  simp [nnnField, getLsbD_encNNN, hi]

/-! ### Formats XNN and X -/

theorem getLsbD_encXNN (op : Nibble) (x : RegId) (nn : Byte) (i : Nat) :
    (encXNN op x nn).getLsbD i =
      if i < 8 then nn.getLsbD i else if i < 12 then x.getLsbD (i - 8) else op.getLsbD (i - 12) := by
  refine (BitVec.getLsbD_append (x := op ++ x) (y := nn)).trans ?_
  rw [BitVec.getLsbD_append]
  have : i - 8 < 4 ↔ i < 12 := by omega
  simp [this, Nat.sub_sub]

@[simp] theorem opField_encXNN (op : Nibble) (x : RegId) (nn : Byte) : opField (encXNN op x nn) = op := by
  refine BitVec.eq_of_getLsbD_eq fun i hi => ?_
  simp [opField, getLsbD_encXNN, hi, show ¬ 12 + i < 8 by omega]

@[simp] theorem xField_encXNN (op : Nibble) (x : RegId) (nn : Byte) : xField (encXNN op x nn) = x := by
  refine BitVec.eq_of_getLsbD_eq fun i hi => ?_
  simp [xField, getLsbD_encXNN, hi, show 8 + i < 12 by omega]

@[simp] theorem nnField_encXNN (op : Nibble) (x : RegId) (nn : Byte) : nnField (encXNN op x nn) = nn := by
  refine BitVec.eq_of_getLsbD_eq fun i hi => ?_
  simp [nnField, getLsbD_encXNN, hi]

/-! ### Formats XY and XYN -/

theorem getLsbD_encXYN (op : Nibble) (x y : RegId) (n : Nibble) (i : Nat) :
    (encXYN op x y n).getLsbD i =
      if i < 4 then n.getLsbD i else if i < 8 then y.getLsbD (i - 4)
      else if i < 12 then x.getLsbD (i - 8) else op.getLsbD (i - 12) := by
  refine (BitVec.getLsbD_append (x := op ++ x ++ y) (y := n)).trans ?_
  rw [BitVec.getLsbD_append, BitVec.getLsbD_append]
  have h1 : i - 4 < 4 ↔ i < 8 := by omega
  have h2 : i - 4 - 4 < 4 ↔ i < 12 := by omega
  simp only [h1, h2]
  simp only [Nat.sub_sub]

@[simp] theorem opField_encXYN (op : Nibble) (x y : RegId) (n : Nibble) :
    opField (encXYN op x y n) = op := by
  refine BitVec.eq_of_getLsbD_eq fun i hi => ?_
  simp [opField, getLsbD_encXYN, hi, show ¬ 12 + i < 8 by omega, show ¬ 12 + i < 4 by omega]

@[simp] theorem xField_encXYN (op : Nibble) (x y : RegId) (n : Nibble) :
    xField (encXYN op x y n) = x := by
  refine BitVec.eq_of_getLsbD_eq fun i hi => ?_
  simp [xField, getLsbD_encXYN, hi, show ¬ 8 + i < 4 by omega, show 8 + i < 12 by omega]

@[simp] theorem yField_encXYN (op : Nibble) (x y : RegId) (n : Nibble) :
    yField (encXYN op x y n) = y := by
  refine BitVec.eq_of_getLsbD_eq fun i hi => ?_
  simp [yField, getLsbD_encXYN, hi, show 4 + i < 8 by omega]

@[simp] theorem nField_encXYN (op : Nibble) (x y : RegId) (n : Nibble) :
    nField (encXYN op x y n) = n := by
  refine BitVec.eq_of_getLsbD_eq fun i hi => ?_
  simp [nField, getLsbD_encXYN, hi]

/-- Every word is its four nibbles (R82). -/
theorem word_eq_fields (ir : Word) :
    ir = encXYN (opField ir) (xField ir) (yField ir) (nField ir) := by
  refine BitVec.eq_of_getLsbD_eq fun i hi => ?_
  rw [getLsbD_encXYN]
  simp only [opField, xField, yField, nField, BitVec.getLsbD_extractLsb']
  split
  · simp [*]
  · split
    · simp [show i - 4 < 4 by omega, show 4 + (i - 4) = i by omega]
    · split
      · simp [show i - 8 < 4 by omega, show 8 + (i - 8) = i by omega]
      · simp [show i - 12 < 4 by omega, show 12 + (i - 12) = i by omega]

/-! ### Recognised words (R86) -/

theorem decode8_unknown {ir : Word}
    (h : (nField ir).toNat ∉ [0x0, 0x1, 0x2, 0x3, 0x4, 0x5, 0x6, 0x7, 0xE]) :
    decode8 ir = .unknown ir := by
  unfold decode8
  split <;> simp_all

theorem decodeE_unknown {ir : Word} (h : (nnField ir).toNat ∉ [0x9E, 0xA1]) :
    decodeE ir = .unknown ir := by
  unfold decodeE
  split <;> simp_all

theorem decodeF_unknown {ir : Word}
    (h : (nnField ir).toNat ∉ [0x07, 0x0A, 0x15, 0x18, 0x1E, 0x29, 0x33, 0x55, 0x65]) :
    decodeF ir = .unknown ir := by
  unfold decodeF
  split <;> simp_all

/-- A word that R86 does not recognise decodes to the unknown row. -/
theorem decode_of_not_recognised {ir : Word} (h : recognised ir = false) : decode ir = .unknown ir := by
  unfold recognised at h
  split at h
  · rename_i hop
    have hop : (opField ir).toNat = 0x0 := hop
    simp only [Bool.or_eq_false_iff, beq_eq_false_iff_ne] at h
    simp only [decode, hop, decode0]
    rw [if_neg h.1, if_neg h.2]
  · rename_i hop
    have hop : (opField ir).toNat = 0x8 := hop
    simp only [decode, hop]
    exact decode8_unknown (decide_eq_false_iff_not.1 h)
  · rename_i hop
    have hop : (opField ir).toNat = 0xE := hop
    simp only [decode, hop]
    exact decodeE_unknown (decide_eq_false_iff_not.1 h)
  · rename_i hop
    have hop : (opField ir).toNat = 0xF := hop
    simp only [decode, hop]
    exact decodeF_unknown (decide_eq_false_iff_not.1 h)
  · cases h

/-! ### Bytes -/

theorem getLsbD_wordOfBytes (hi lo : Byte) (i : Nat) :
    (wordOfBytes hi lo).getLsbD i = if i < 8 then lo.getLsbD i else hi.getLsbD (i - 8) :=
  BitVec.getLsbD_append

@[simp] theorem hiByte_wordOfBytes (hi lo : Byte) : hiByte (wordOfBytes hi lo) = hi := by
  refine BitVec.eq_of_getLsbD_eq fun i h => ?_
  simp [hiByte, getLsbD_wordOfBytes, h]

@[simp] theorem loByte_wordOfBytes (hi lo : Byte) : loByte (wordOfBytes hi lo) = lo := by
  refine BitVec.eq_of_getLsbD_eq fun i h => ?_
  simp [loByte, getLsbD_wordOfBytes, h]

@[simp] theorem wordOfBytes_hi_lo (ir : Word) : wordOfBytes (hiByte ir) (loByte ir) = ir := by
  refine BitVec.eq_of_getLsbD_eq fun i h => ?_
  rw [getLsbD_wordOfBytes]
  simp only [hiByte, loByte, BitVec.getLsbD_extractLsb']
  split
  · simp [*]
  · simp [show i - 8 < 8 by omega, show 8 + (i - 8) = i by omega]

@[simp] theorem decodeBytes_cons (hi lo : Byte) (rest : List Byte) :
    decodeBytes (hi :: lo :: rest) = .ok (decode (wordOfBytes hi lo), rest) := rfl

theorem decodeTableWord_eq (nbits w : Nat) :
    decodeTableWord nbits w = some (decode (BitVec.ofNat 16 w)) := by
  simp [decodeTableWord]

end Sys2Proof
end

