-- ==== Sys2Proof/Laws/State.lean ====
section
/-! SUPPORT. One lemma per field per update, true by rfl, so that no proof unfolds a record update. -/

namespace Sys2Proof.Machine

variable (s : State)

/-! ### setReg -/

@[simp] theorem State.setReg_v (x : RegId) (b : Byte) : (s.setReg x b).v = s.v.set x.toNat b x.isLt := rfl
@[simp] theorem State.setReg_i (x : RegId) (b : Byte) : (s.setReg x b).i = s.i := rfl
@[simp] theorem State.setReg_pc (x : RegId) (b : Byte) : (s.setReg x b).pc = s.pc := rfl
@[simp] theorem State.setReg_stack (x : RegId) (b : Byte) : (s.setReg x b).stack = s.stack := rfl
@[simp] theorem State.setReg_sp (x : RegId) (b : Byte) : (s.setReg x b).sp = s.sp := rfl
@[simp] theorem State.setReg_dt (x : RegId) (b : Byte) : (s.setReg x b).dt = s.dt := rfl
@[simp] theorem State.setReg_st (x : RegId) (b : Byte) : (s.setReg x b).st = s.st := rfl
@[simp] theorem State.setReg_fb (x : RegId) (b : Byte) : (s.setReg x b).fb = s.fb := rfl
@[simp] theorem State.setReg_keys (x : RegId) (b : Byte) : (s.setReg x b).keys = s.keys := rfl
@[simp] theorem State.setReg_mem (x : RegId) (b : Byte) : (s.setReg x b).mem = s.mem := rfl
@[simp] theorem State.setReg_fault (x : RegId) (b : Byte) : (s.setReg x b).fault = s.fault := rfl
@[simp] theorem State.setReg_unknownIr (x : RegId) (b : Byte) : (s.setReg x b).unknownIr = s.unknownIr := rfl
@[simp] theorem State.setReg_rndDraws (x : RegId) (b : Byte) : (s.setReg x b).rndDraws = s.rndDraws := rfl
@[simp] theorem State.setReg_keyInputs (x : RegId) (b : Byte) : (s.setReg x b).keyInputs = s.keyInputs := rfl
@[simp] theorem State.setReg_pixel (x : RegId) (b : Byte) (col row : Nat) : (s.setReg x b).pixel col row = s.pixel col row := rfl

/-! ### setRegs -/

@[simp] theorem State.setRegs_v (bs : List Byte) : (s.setRegs bs).v = setRegList s.v 0 bs := rfl
@[simp] theorem State.setRegs_i (bs : List Byte) : (s.setRegs bs).i = s.i := rfl
@[simp] theorem State.setRegs_pc (bs : List Byte) : (s.setRegs bs).pc = s.pc := rfl
@[simp] theorem State.setRegs_stack (bs : List Byte) : (s.setRegs bs).stack = s.stack := rfl
@[simp] theorem State.setRegs_sp (bs : List Byte) : (s.setRegs bs).sp = s.sp := rfl
@[simp] theorem State.setRegs_dt (bs : List Byte) : (s.setRegs bs).dt = s.dt := rfl
@[simp] theorem State.setRegs_st (bs : List Byte) : (s.setRegs bs).st = s.st := rfl
@[simp] theorem State.setRegs_fb (bs : List Byte) : (s.setRegs bs).fb = s.fb := rfl
@[simp] theorem State.setRegs_keys (bs : List Byte) : (s.setRegs bs).keys = s.keys := rfl
@[simp] theorem State.setRegs_mem (bs : List Byte) : (s.setRegs bs).mem = s.mem := rfl
@[simp] theorem State.setRegs_fault (bs : List Byte) : (s.setRegs bs).fault = s.fault := rfl
@[simp] theorem State.setRegs_unknownIr (bs : List Byte) : (s.setRegs bs).unknownIr = s.unknownIr := rfl
@[simp] theorem State.setRegs_rndDraws (bs : List Byte) : (s.setRegs bs).rndDraws = s.rndDraws := rfl
@[simp] theorem State.setRegs_keyInputs (bs : List Byte) : (s.setRegs bs).keyInputs = s.keyInputs := rfl
@[simp] theorem State.setRegs_pixel (bs : List Byte) (col row : Nat) : (s.setRegs bs).pixel col row = s.pixel col row := rfl

/-! ### setResultFlag -/

@[simp] theorem State.setResultFlag_i (x : RegId) (res : Byte) (flag : Bool) : (s.setResultFlag x res flag).i = s.i := rfl
@[simp] theorem State.setResultFlag_pc (x : RegId) (res : Byte) (flag : Bool) : (s.setResultFlag x res flag).pc = s.pc := rfl
@[simp] theorem State.setResultFlag_stack (x : RegId) (res : Byte) (flag : Bool) : (s.setResultFlag x res flag).stack = s.stack := rfl
@[simp] theorem State.setResultFlag_sp (x : RegId) (res : Byte) (flag : Bool) : (s.setResultFlag x res flag).sp = s.sp := rfl
@[simp] theorem State.setResultFlag_dt (x : RegId) (res : Byte) (flag : Bool) : (s.setResultFlag x res flag).dt = s.dt := rfl
@[simp] theorem State.setResultFlag_st (x : RegId) (res : Byte) (flag : Bool) : (s.setResultFlag x res flag).st = s.st := rfl
@[simp] theorem State.setResultFlag_fb (x : RegId) (res : Byte) (flag : Bool) : (s.setResultFlag x res flag).fb = s.fb := rfl
@[simp] theorem State.setResultFlag_keys (x : RegId) (res : Byte) (flag : Bool) : (s.setResultFlag x res flag).keys = s.keys := rfl
@[simp] theorem State.setResultFlag_mem (x : RegId) (res : Byte) (flag : Bool) : (s.setResultFlag x res flag).mem = s.mem := rfl
@[simp] theorem State.setResultFlag_fault (x : RegId) (res : Byte) (flag : Bool) : (s.setResultFlag x res flag).fault = s.fault := rfl
@[simp] theorem State.setResultFlag_unknownIr (x : RegId) (res : Byte) (flag : Bool) : (s.setResultFlag x res flag).unknownIr = s.unknownIr := rfl
@[simp] theorem State.setResultFlag_rndDraws (x : RegId) (res : Byte) (flag : Bool) : (s.setResultFlag x res flag).rndDraws = s.rndDraws := rfl
@[simp] theorem State.setResultFlag_keyInputs (x : RegId) (res : Byte) (flag : Bool) : (s.setResultFlag x res flag).keyInputs = s.keyInputs := rfl
@[simp] theorem State.setResultFlag_pixel (x : RegId) (res : Byte) (flag : Bool) (col row : Nat) : (s.setResultFlag x res flag).pixel col row = s.pixel col row := rfl

/-! ### setI -/

@[simp] theorem State.setI_v (w : Word) : (s.setI w).v = s.v := rfl
@[simp] theorem State.setI_i (w : Word) : (s.setI w).i = w := rfl
@[simp] theorem State.setI_pc (w : Word) : (s.setI w).pc = s.pc := rfl
@[simp] theorem State.setI_stack (w : Word) : (s.setI w).stack = s.stack := rfl
@[simp] theorem State.setI_sp (w : Word) : (s.setI w).sp = s.sp := rfl
@[simp] theorem State.setI_dt (w : Word) : (s.setI w).dt = s.dt := rfl
@[simp] theorem State.setI_st (w : Word) : (s.setI w).st = s.st := rfl
@[simp] theorem State.setI_fb (w : Word) : (s.setI w).fb = s.fb := rfl
@[simp] theorem State.setI_keys (w : Word) : (s.setI w).keys = s.keys := rfl
@[simp] theorem State.setI_mem (w : Word) : (s.setI w).mem = s.mem := rfl
@[simp] theorem State.setI_fault (w : Word) : (s.setI w).fault = s.fault := rfl
@[simp] theorem State.setI_unknownIr (w : Word) : (s.setI w).unknownIr = s.unknownIr := rfl
@[simp] theorem State.setI_rndDraws (w : Word) : (s.setI w).rndDraws = s.rndDraws := rfl
@[simp] theorem State.setI_keyInputs (w : Word) : (s.setI w).keyInputs = s.keyInputs := rfl
@[simp] theorem State.setI_reg (w : Word) (r : RegId) : (s.setI w).reg r = s.reg r := rfl
@[simp] theorem State.setI_pixel (w : Word) (col row : Nat) : (s.setI w).pixel col row = s.pixel col row := rfl

/-! ### setPC -/

@[simp] theorem State.setPC_v (w : Word) : (s.setPC w).v = s.v := rfl
@[simp] theorem State.setPC_i (w : Word) : (s.setPC w).i = s.i := rfl
@[simp] theorem State.setPC_pc (w : Word) : (s.setPC w).pc = w := rfl
@[simp] theorem State.setPC_stack (w : Word) : (s.setPC w).stack = s.stack := rfl
@[simp] theorem State.setPC_sp (w : Word) : (s.setPC w).sp = s.sp := rfl
@[simp] theorem State.setPC_dt (w : Word) : (s.setPC w).dt = s.dt := rfl
@[simp] theorem State.setPC_st (w : Word) : (s.setPC w).st = s.st := rfl
@[simp] theorem State.setPC_fb (w : Word) : (s.setPC w).fb = s.fb := rfl
@[simp] theorem State.setPC_keys (w : Word) : (s.setPC w).keys = s.keys := rfl
@[simp] theorem State.setPC_mem (w : Word) : (s.setPC w).mem = s.mem := rfl
@[simp] theorem State.setPC_fault (w : Word) : (s.setPC w).fault = s.fault := rfl
@[simp] theorem State.setPC_unknownIr (w : Word) : (s.setPC w).unknownIr = s.unknownIr := rfl
@[simp] theorem State.setPC_rndDraws (w : Word) : (s.setPC w).rndDraws = s.rndDraws := rfl
@[simp] theorem State.setPC_keyInputs (w : Word) : (s.setPC w).keyInputs = s.keyInputs := rfl
@[simp] theorem State.setPC_reg (w : Word) (r : RegId) : (s.setPC w).reg r = s.reg r := rfl
@[simp] theorem State.setPC_pixel (w : Word) (col row : Nat) : (s.setPC w).pixel col row = s.pixel col row := rfl

/-! ### advance -/

@[simp] theorem State.advance_v : (s.advance).v = s.v := rfl
@[simp] theorem State.advance_i : (s.advance).i = s.i := rfl
@[simp] theorem State.advance_pc : (s.advance).pc = s.pc + 2 := rfl
@[simp] theorem State.advance_stack : (s.advance).stack = s.stack := rfl
@[simp] theorem State.advance_sp : (s.advance).sp = s.sp := rfl
@[simp] theorem State.advance_dt : (s.advance).dt = s.dt := rfl
@[simp] theorem State.advance_st : (s.advance).st = s.st := rfl
@[simp] theorem State.advance_fb : (s.advance).fb = s.fb := rfl
@[simp] theorem State.advance_keys : (s.advance).keys = s.keys := rfl
@[simp] theorem State.advance_mem : (s.advance).mem = s.mem := rfl
@[simp] theorem State.advance_fault : (s.advance).fault = s.fault := rfl
@[simp] theorem State.advance_unknownIr : (s.advance).unknownIr = s.unknownIr := rfl
@[simp] theorem State.advance_rndDraws : (s.advance).rndDraws = s.rndDraws := rfl
@[simp] theorem State.advance_keyInputs : (s.advance).keyInputs = s.keyInputs := rfl
@[simp] theorem State.advance_reg (r : RegId) : (s.advance).reg r = s.reg r := rfl
@[simp] theorem State.advance_pixel (col row : Nat) : (s.advance).pixel col row = s.pixel col row := rfl

/-! ### skipIf -/

@[simp] theorem State.skipIf_v (c : Bool) : (s.skipIf c).v = s.v := rfl
@[simp] theorem State.skipIf_i (c : Bool) : (s.skipIf c).i = s.i := rfl
@[simp] theorem State.skipIf_pc (c : Bool) : (s.skipIf c).pc = if c then s.npc + 2 else s.npc := rfl
@[simp] theorem State.skipIf_stack (c : Bool) : (s.skipIf c).stack = s.stack := rfl
@[simp] theorem State.skipIf_sp (c : Bool) : (s.skipIf c).sp = s.sp := rfl
@[simp] theorem State.skipIf_dt (c : Bool) : (s.skipIf c).dt = s.dt := rfl
@[simp] theorem State.skipIf_st (c : Bool) : (s.skipIf c).st = s.st := rfl
@[simp] theorem State.skipIf_fb (c : Bool) : (s.skipIf c).fb = s.fb := rfl
@[simp] theorem State.skipIf_keys (c : Bool) : (s.skipIf c).keys = s.keys := rfl
@[simp] theorem State.skipIf_mem (c : Bool) : (s.skipIf c).mem = s.mem := rfl
@[simp] theorem State.skipIf_fault (c : Bool) : (s.skipIf c).fault = s.fault := rfl
@[simp] theorem State.skipIf_unknownIr (c : Bool) : (s.skipIf c).unknownIr = s.unknownIr := rfl
@[simp] theorem State.skipIf_rndDraws (c : Bool) : (s.skipIf c).rndDraws = s.rndDraws := rfl
@[simp] theorem State.skipIf_keyInputs (c : Bool) : (s.skipIf c).keyInputs = s.keyInputs := rfl
@[simp] theorem State.skipIf_reg (c : Bool) (r : RegId) : (s.skipIf c).reg r = s.reg r := rfl
@[simp] theorem State.skipIf_pixel (c : Bool) (col row : Nat) : (s.skipIf c).pixel col row = s.pixel col row := rfl

/-! ### setMem -/

@[simp] theorem State.setMem_v (m : Memory) : (s.setMem m).v = s.v := rfl
@[simp] theorem State.setMem_i (m : Memory) : (s.setMem m).i = s.i := rfl
@[simp] theorem State.setMem_pc (m : Memory) : (s.setMem m).pc = s.pc := rfl
@[simp] theorem State.setMem_stack (m : Memory) : (s.setMem m).stack = s.stack := rfl
@[simp] theorem State.setMem_sp (m : Memory) : (s.setMem m).sp = s.sp := rfl
@[simp] theorem State.setMem_dt (m : Memory) : (s.setMem m).dt = s.dt := rfl
@[simp] theorem State.setMem_st (m : Memory) : (s.setMem m).st = s.st := rfl
@[simp] theorem State.setMem_fb (m : Memory) : (s.setMem m).fb = s.fb := rfl
@[simp] theorem State.setMem_keys (m : Memory) : (s.setMem m).keys = s.keys := rfl
@[simp] theorem State.setMem_mem (m : Memory) : (s.setMem m).mem = m := rfl
@[simp] theorem State.setMem_fault (m : Memory) : (s.setMem m).fault = s.fault := rfl
@[simp] theorem State.setMem_unknownIr (m : Memory) : (s.setMem m).unknownIr = s.unknownIr := rfl
@[simp] theorem State.setMem_rndDraws (m : Memory) : (s.setMem m).rndDraws = s.rndDraws := rfl
@[simp] theorem State.setMem_keyInputs (m : Memory) : (s.setMem m).keyInputs = s.keyInputs := rfl
@[simp] theorem State.setMem_reg (m : Memory) (r : RegId) : (s.setMem m).reg r = s.reg r := rfl
@[simp] theorem State.setMem_pixel (m : Memory) (col row : Nat) : (s.setMem m).pixel col row = s.pixel col row := rfl

/-! ### setDT -/

@[simp] theorem State.setDT_v (b : Byte) : (s.setDT b).v = s.v := rfl
@[simp] theorem State.setDT_i (b : Byte) : (s.setDT b).i = s.i := rfl
@[simp] theorem State.setDT_pc (b : Byte) : (s.setDT b).pc = s.pc := rfl
@[simp] theorem State.setDT_stack (b : Byte) : (s.setDT b).stack = s.stack := rfl
@[simp] theorem State.setDT_sp (b : Byte) : (s.setDT b).sp = s.sp := rfl
@[simp] theorem State.setDT_dt (b : Byte) : (s.setDT b).dt = b := rfl
@[simp] theorem State.setDT_st (b : Byte) : (s.setDT b).st = s.st := rfl
@[simp] theorem State.setDT_fb (b : Byte) : (s.setDT b).fb = s.fb := rfl
@[simp] theorem State.setDT_keys (b : Byte) : (s.setDT b).keys = s.keys := rfl
@[simp] theorem State.setDT_mem (b : Byte) : (s.setDT b).mem = s.mem := rfl
@[simp] theorem State.setDT_fault (b : Byte) : (s.setDT b).fault = s.fault := rfl
@[simp] theorem State.setDT_unknownIr (b : Byte) : (s.setDT b).unknownIr = s.unknownIr := rfl
@[simp] theorem State.setDT_rndDraws (b : Byte) : (s.setDT b).rndDraws = s.rndDraws := rfl
@[simp] theorem State.setDT_keyInputs (b : Byte) : (s.setDT b).keyInputs = s.keyInputs := rfl
@[simp] theorem State.setDT_reg (b : Byte) (r : RegId) : (s.setDT b).reg r = s.reg r := rfl
@[simp] theorem State.setDT_pixel (b : Byte) (col row : Nat) : (s.setDT b).pixel col row = s.pixel col row := rfl

/-! ### setST -/

@[simp] theorem State.setST_v (b : Byte) : (s.setST b).v = s.v := rfl
@[simp] theorem State.setST_i (b : Byte) : (s.setST b).i = s.i := rfl
@[simp] theorem State.setST_pc (b : Byte) : (s.setST b).pc = s.pc := rfl
@[simp] theorem State.setST_stack (b : Byte) : (s.setST b).stack = s.stack := rfl
@[simp] theorem State.setST_sp (b : Byte) : (s.setST b).sp = s.sp := rfl
@[simp] theorem State.setST_dt (b : Byte) : (s.setST b).dt = s.dt := rfl
@[simp] theorem State.setST_st (b : Byte) : (s.setST b).st = b := rfl
@[simp] theorem State.setST_fb (b : Byte) : (s.setST b).fb = s.fb := rfl
@[simp] theorem State.setST_keys (b : Byte) : (s.setST b).keys = s.keys := rfl
@[simp] theorem State.setST_mem (b : Byte) : (s.setST b).mem = s.mem := rfl
@[simp] theorem State.setST_fault (b : Byte) : (s.setST b).fault = s.fault := rfl
@[simp] theorem State.setST_unknownIr (b : Byte) : (s.setST b).unknownIr = s.unknownIr := rfl
@[simp] theorem State.setST_rndDraws (b : Byte) : (s.setST b).rndDraws = s.rndDraws := rfl
@[simp] theorem State.setST_keyInputs (b : Byte) : (s.setST b).keyInputs = s.keyInputs := rfl
@[simp] theorem State.setST_reg (b : Byte) (r : RegId) : (s.setST b).reg r = s.reg r := rfl
@[simp] theorem State.setST_pixel (b : Byte) (col row : Nat) : (s.setST b).pixel col row = s.pixel col row := rfl

/-! ### setFB -/

@[simp] theorem State.setFB_v (f : Vector (BitVec 64) 32) : (s.setFB f).v = s.v := rfl
@[simp] theorem State.setFB_i (f : Vector (BitVec 64) 32) : (s.setFB f).i = s.i := rfl
@[simp] theorem State.setFB_pc (f : Vector (BitVec 64) 32) : (s.setFB f).pc = s.pc := rfl
@[simp] theorem State.setFB_stack (f : Vector (BitVec 64) 32) : (s.setFB f).stack = s.stack := rfl
@[simp] theorem State.setFB_sp (f : Vector (BitVec 64) 32) : (s.setFB f).sp = s.sp := rfl
@[simp] theorem State.setFB_dt (f : Vector (BitVec 64) 32) : (s.setFB f).dt = s.dt := rfl
@[simp] theorem State.setFB_st (f : Vector (BitVec 64) 32) : (s.setFB f).st = s.st := rfl
@[simp] theorem State.setFB_fb (f : Vector (BitVec 64) 32) : (s.setFB f).fb = f := rfl
@[simp] theorem State.setFB_keys (f : Vector (BitVec 64) 32) : (s.setFB f).keys = s.keys := rfl
@[simp] theorem State.setFB_mem (f : Vector (BitVec 64) 32) : (s.setFB f).mem = s.mem := rfl
@[simp] theorem State.setFB_fault (f : Vector (BitVec 64) 32) : (s.setFB f).fault = s.fault := rfl
@[simp] theorem State.setFB_unknownIr (f : Vector (BitVec 64) 32) : (s.setFB f).unknownIr = s.unknownIr := rfl
@[simp] theorem State.setFB_rndDraws (f : Vector (BitVec 64) 32) : (s.setFB f).rndDraws = s.rndDraws := rfl
@[simp] theorem State.setFB_keyInputs (f : Vector (BitVec 64) 32) : (s.setFB f).keyInputs = s.keyInputs := rfl
@[simp] theorem State.setFB_reg (f : Vector (BitVec 64) 32) (r : RegId) : (s.setFB f).reg r = s.reg r := rfl

/-! ### report -/

@[simp] theorem State.report_v (ir : Word) : (s.report ir).v = s.v := rfl
@[simp] theorem State.report_i (ir : Word) : (s.report ir).i = s.i := rfl
@[simp] theorem State.report_pc (ir : Word) : (s.report ir).pc = s.pc := rfl
@[simp] theorem State.report_stack (ir : Word) : (s.report ir).stack = s.stack := rfl
@[simp] theorem State.report_sp (ir : Word) : (s.report ir).sp = s.sp := rfl
@[simp] theorem State.report_dt (ir : Word) : (s.report ir).dt = s.dt := rfl
@[simp] theorem State.report_st (ir : Word) : (s.report ir).st = s.st := rfl
@[simp] theorem State.report_fb (ir : Word) : (s.report ir).fb = s.fb := rfl
@[simp] theorem State.report_keys (ir : Word) : (s.report ir).keys = s.keys := rfl
@[simp] theorem State.report_mem (ir : Word) : (s.report ir).mem = s.mem := rfl
@[simp] theorem State.report_fault (ir : Word) : (s.report ir).fault = s.fault := rfl
@[simp] theorem State.report_unknownIr (ir : Word) : (s.report ir).unknownIr = some ir := rfl
@[simp] theorem State.report_rndDraws (ir : Word) : (s.report ir).rndDraws = s.rndDraws := rfl
@[simp] theorem State.report_keyInputs (ir : Word) : (s.report ir).keyInputs = s.keyInputs := rfl
@[simp] theorem State.report_reg (ir : Word) (r : RegId) : (s.report ir).reg r = s.reg r := rfl
@[simp] theorem State.report_pixel (ir : Word) (col row : Nat) : (s.report ir).pixel col row = s.pixel col row := rfl

/-! ### clearReport -/

@[simp] theorem State.clearReport_v : (s.clearReport).v = s.v := rfl
@[simp] theorem State.clearReport_i : (s.clearReport).i = s.i := rfl
@[simp] theorem State.clearReport_pc : (s.clearReport).pc = s.pc := rfl
@[simp] theorem State.clearReport_stack : (s.clearReport).stack = s.stack := rfl
@[simp] theorem State.clearReport_sp : (s.clearReport).sp = s.sp := rfl
@[simp] theorem State.clearReport_dt : (s.clearReport).dt = s.dt := rfl
@[simp] theorem State.clearReport_st : (s.clearReport).st = s.st := rfl
@[simp] theorem State.clearReport_fb : (s.clearReport).fb = s.fb := rfl
@[simp] theorem State.clearReport_keys : (s.clearReport).keys = s.keys := rfl
@[simp] theorem State.clearReport_mem : (s.clearReport).mem = s.mem := rfl
@[simp] theorem State.clearReport_fault : (s.clearReport).fault = s.fault := rfl
@[simp] theorem State.clearReport_unknownIr : (s.clearReport).unknownIr = none := rfl
@[simp] theorem State.clearReport_rndDraws : (s.clearReport).rndDraws = s.rndDraws := rfl
@[simp] theorem State.clearReport_keyInputs : (s.clearReport).keyInputs = s.keyInputs := rfl
@[simp] theorem State.clearReport_reg (r : RegId) : (s.clearReport).reg r = s.reg r := rfl
@[simp] theorem State.clearReport_pixel (col row : Nat) : (s.clearReport).pixel col row = s.pixel col row := rfl

/-! ### countDraw -/

@[simp] theorem State.countDraw_v : (s.countDraw).v = s.v := rfl
@[simp] theorem State.countDraw_i : (s.countDraw).i = s.i := rfl
@[simp] theorem State.countDraw_pc : (s.countDraw).pc = s.pc := rfl
@[simp] theorem State.countDraw_stack : (s.countDraw).stack = s.stack := rfl
@[simp] theorem State.countDraw_sp : (s.countDraw).sp = s.sp := rfl
@[simp] theorem State.countDraw_dt : (s.countDraw).dt = s.dt := rfl
@[simp] theorem State.countDraw_st : (s.countDraw).st = s.st := rfl
@[simp] theorem State.countDraw_fb : (s.countDraw).fb = s.fb := rfl
@[simp] theorem State.countDraw_keys : (s.countDraw).keys = s.keys := rfl
@[simp] theorem State.countDraw_mem : (s.countDraw).mem = s.mem := rfl
@[simp] theorem State.countDraw_fault : (s.countDraw).fault = s.fault := rfl
@[simp] theorem State.countDraw_unknownIr : (s.countDraw).unknownIr = s.unknownIr := rfl
@[simp] theorem State.countDraw_rndDraws : (s.countDraw).rndDraws = s.rndDraws + 1 := rfl
@[simp] theorem State.countDraw_keyInputs : (s.countDraw).keyInputs = s.keyInputs := rfl
@[simp] theorem State.countDraw_reg (r : RegId) : (s.countDraw).reg r = s.reg r := rfl
@[simp] theorem State.countDraw_pixel (col row : Nat) : (s.countDraw).pixel col row = s.pixel col row := rfl

/-! ### tick -/

@[simp] theorem State.tick_v : (s.tick).v = s.v := rfl
@[simp] theorem State.tick_i : (s.tick).i = s.i := rfl
@[simp] theorem State.tick_pc : (s.tick).pc = s.pc := rfl
@[simp] theorem State.tick_stack : (s.tick).stack = s.stack := rfl
@[simp] theorem State.tick_sp : (s.tick).sp = s.sp := rfl
@[simp] theorem State.tick_dt : (s.tick).dt = tickTimer s.dt := rfl
@[simp] theorem State.tick_st : (s.tick).st = tickTimer s.st := rfl
@[simp] theorem State.tick_fb : (s.tick).fb = s.fb := rfl
@[simp] theorem State.tick_keys : (s.tick).keys = s.keys := rfl
@[simp] theorem State.tick_mem : (s.tick).mem = s.mem := rfl
@[simp] theorem State.tick_fault : (s.tick).fault = s.fault := rfl
@[simp] theorem State.tick_unknownIr : (s.tick).unknownIr = s.unknownIr := rfl
@[simp] theorem State.tick_rndDraws : (s.tick).rndDraws = s.rndDraws := rfl
@[simp] theorem State.tick_keyInputs : (s.tick).keyInputs = s.keyInputs := rfl
@[simp] theorem State.tick_reg (r : RegId) : (s.tick).reg r = s.reg r := rfl
@[simp] theorem State.tick_pixel (col row : Nat) : (s.tick).pixel col row = s.pixel col row := rfl

/-! ### latch -/

@[simp] theorem State.latch_v (c : FaultCode) : (s.latch c).v = s.v := rfl
@[simp] theorem State.latch_i (c : FaultCode) : (s.latch c).i = s.i := rfl
@[simp] theorem State.latch_pc (c : FaultCode) : (s.latch c).pc = s.pc := rfl
@[simp] theorem State.latch_stack (c : FaultCode) : (s.latch c).stack = s.stack := rfl
@[simp] theorem State.latch_sp (c : FaultCode) : (s.latch c).sp = s.sp := rfl
@[simp] theorem State.latch_dt (c : FaultCode) : (s.latch c).dt = s.dt := rfl
@[simp] theorem State.latch_st (c : FaultCode) : (s.latch c).st = s.st := rfl
@[simp] theorem State.latch_fb (c : FaultCode) : (s.latch c).fb = s.fb := rfl
@[simp] theorem State.latch_keys (c : FaultCode) : (s.latch c).keys = s.keys := rfl
@[simp] theorem State.latch_mem (c : FaultCode) : (s.latch c).mem = s.mem := rfl
@[simp] theorem State.latch_fault (c : FaultCode) : (s.latch c).fault = c := rfl
@[simp] theorem State.latch_unknownIr (c : FaultCode) : (s.latch c).unknownIr = s.unknownIr := rfl
@[simp] theorem State.latch_rndDraws (c : FaultCode) : (s.latch c).rndDraws = s.rndDraws := rfl
@[simp] theorem State.latch_keyInputs (c : FaultCode) : (s.latch c).keyInputs = s.keyInputs := rfl
@[simp] theorem State.latch_reg (c : FaultCode) (r : RegId) : (s.latch c).reg r = s.reg r := rfl
@[simp] theorem State.latch_pixel (c : FaultCode) (col row : Nat) : (s.latch c).pixel col row = s.pixel col row := rfl

/-! ### setKeys -/

@[simp] theorem State.setKeys_v (k : BitVec 16) : (s.setKeys k).v = s.v := rfl
@[simp] theorem State.setKeys_i (k : BitVec 16) : (s.setKeys k).i = s.i := rfl
@[simp] theorem State.setKeys_pc (k : BitVec 16) : (s.setKeys k).pc = s.pc := rfl
@[simp] theorem State.setKeys_stack (k : BitVec 16) : (s.setKeys k).stack = s.stack := rfl
@[simp] theorem State.setKeys_sp (k : BitVec 16) : (s.setKeys k).sp = s.sp := rfl
@[simp] theorem State.setKeys_dt (k : BitVec 16) : (s.setKeys k).dt = s.dt := rfl
@[simp] theorem State.setKeys_st (k : BitVec 16) : (s.setKeys k).st = s.st := rfl
@[simp] theorem State.setKeys_fb (k : BitVec 16) : (s.setKeys k).fb = s.fb := rfl
@[simp] theorem State.setKeys_keys (k : BitVec 16) : (s.setKeys k).keys = k := rfl
@[simp] theorem State.setKeys_mem (k : BitVec 16) : (s.setKeys k).mem = s.mem := rfl
@[simp] theorem State.setKeys_fault (k : BitVec 16) : (s.setKeys k).fault = s.fault := rfl
@[simp] theorem State.setKeys_unknownIr (k : BitVec 16) : (s.setKeys k).unknownIr = s.unknownIr := rfl
@[simp] theorem State.setKeys_rndDraws (k : BitVec 16) : (s.setKeys k).rndDraws = s.rndDraws := rfl
@[simp] theorem State.setKeys_keyInputs (k : BitVec 16) : (s.setKeys k).keyInputs = s.keyInputs := rfl
@[simp] theorem State.setKeys_reg (k : BitVec 16) (r : RegId) : (s.setKeys k).reg r = s.reg r := rfl
@[simp] theorem State.setKeys_pixel (k : BitVec 16) (col row : Nat) : (s.setKeys k).pixel col row = s.pixel col row := rfl

/-! ### resetWith, assertReset -/

@[simp] theorem State.resetWith_i (g : GlyphTable) : (State.resetWith g).i = 0 := rfl
@[simp] theorem State.resetWith_pc (g : GlyphTable) : (State.resetWith g).pc = 0x200 := rfl
@[simp] theorem State.resetWith_sp (g : GlyphTable) : (State.resetWith g).sp = 0 := rfl
@[simp] theorem State.resetWith_dt (g : GlyphTable) : (State.resetWith g).dt = 0 := rfl
@[simp] theorem State.resetWith_st (g : GlyphTable) : (State.resetWith g).st = 0 := rfl
@[simp] theorem State.resetWith_keys (g : GlyphTable) : (State.resetWith g).keys = 0 := rfl
@[simp] theorem State.resetWith_fault (g : GlyphTable) : (State.resetWith g).fault = .none := rfl
@[simp] theorem State.resetWith_unknownIr (g : GlyphTable) : (State.resetWith g).unknownIr = none := rfl
@[simp] theorem State.resetWith_rndDraws (g : GlyphTable) : (State.resetWith g).rndDraws = 0 := rfl
@[simp] theorem State.resetWith_keyInputs (g : GlyphTable) : (State.resetWith g).keyInputs = [] := rfl
@[simp] theorem State.resetWith_mem (g : GlyphTable) : (State.resetWith g).mem = { glyphs := g, cells := [] } := rfl
@[simp] theorem State.resetWith_v (g : GlyphTable) : (State.resetWith g).v = Vector.replicate 16 0 := rfl
@[simp] theorem State.resetWith_stack (g : GlyphTable) : (State.resetWith g).stack = Vector.replicate 16 0 := rfl
@[simp] theorem State.resetWith_fb (g : GlyphTable) : (State.resetWith g).fb = Vector.replicate 32 0 := rfl
@[simp] theorem State.assertReset_i : s.assertReset.i = 0 := rfl
@[simp] theorem State.assertReset_pc : s.assertReset.pc = 0x200 := rfl
@[simp] theorem State.assertReset_sp : s.assertReset.sp = 0 := rfl
@[simp] theorem State.assertReset_dt : s.assertReset.dt = 0 := rfl
@[simp] theorem State.assertReset_st : s.assertReset.st = 0 := rfl
@[simp] theorem State.assertReset_keys : s.assertReset.keys = 0 := rfl
@[simp] theorem State.assertReset_fault : s.assertReset.fault = .none := rfl
@[simp] theorem State.assertReset_unknownIr : s.assertReset.unknownIr = none := rfl
@[simp] theorem State.assertReset_rndDraws : s.assertReset.rndDraws = s.rndDraws := rfl
@[simp] theorem State.assertReset_keyInputs : s.assertReset.keyInputs = s.keyInputs := rfl
@[simp] theorem State.assertReset_mem : s.assertReset.mem = { glyphs := s.mem.glyphs, cells := [] } := rfl
@[simp] theorem State.assertReset_v : s.assertReset.v = Vector.replicate 16 0 := rfl
@[simp] theorem State.assertReset_stack : s.assertReset.stack = Vector.replicate 16 0 := rfl
@[simp] theorem State.assertReset_fb : s.assertReset.fb = Vector.replicate 32 0 := rfl

end Sys2Proof.Machine
end

