-- ==== Sys2Proof/Laws/Ops.lean ====
section
/-! SUPPORT. What the operations on registers, flags, stack, latch and timers do. -/

namespace Sys2Proof.Machine

/-! ### Registers -/

theorem State.reg_setReg (s : State) (x : RegId) (b : Byte) (r : RegId) :
    (s.setReg x b).reg r = if r = x then b else s.reg r := by
  simp only [State.reg, State.setReg, Vector.getElem_set, BitVec.toNat_inj]
  by_cases h : r = x
  · simp [h]
  · simp [h, Ne.symm h]

@[simp] theorem State.reg_setReg_same (s : State) (x : RegId) (b : Byte) : (s.setReg x b).reg x = b := by
  simp [State.reg_setReg]

theorem State.reg_setReg_other (s : State) {x r : RegId} (b : Byte) (h : r ≠ x) :
    (s.setReg x b).reg r = s.reg r := by simp [State.reg_setReg, h]

/-- The flag is the last write (R130). -/
theorem State.reg_setResultFlag (s : State) (x : RegId) (res : Byte) (flag : Bool) (r : RegId) :
    (s.setResultFlag x res flag).reg r =
      if r = VF then flagByte flag else if r = x then res else s.reg r := by
  simp [State.setResultFlag, State.reg_setReg]

theorem setRegList_getElem (bs : List Byte) (v : Vector Byte 16) (k i : Nat) (h : i < 16) :
    (setRegList v k bs)[i] = if k ≤ i then bs.getD (i - k) v[i] else v[i] := by
  induction bs generalizing v k with
  | nil => simp [setRegList]
  | cons b bs ih =>
    simp only [setRegList, ih]
    rcases Nat.lt_trichotomy i k with hi | rfl | hi
    · have h1 : ¬ k + 1 ≤ i := by omega
      have h2 : ¬ k ≤ i := by omega
      simp only [h1, h2, if_false]
      split
      · exact Vector.getElem_set_ne _ _ (by omega)
      · rfl
    · simp [h]
    · obtain ⟨d, rfl⟩ := Nat.exists_eq_add_of_lt hi
      have h1 : k + 1 ≤ k + d + 1 := by omega
      have h2 : k ≤ k + d + 1 := by omega
      have h3 : k + d + 1 - (k + 1) = d := by omega
      have h4 : k + d + 1 - k = d + 1 := by omega
      have h5 : k < 16 := by omega
      simp only [h1, h2, h3, h4, h5, if_true, dif_pos, List.getD_cons_succ]
      rw [Vector.getElem_set_ne _ _ (by omega)]

theorem State.reg_setRegs (s : State) (bs : List Byte) (r : RegId) :
    (s.setRegs bs).reg r = bs.getD r.toNat (s.reg r) := by
  have h := setRegList_getElem bs s.v 0 r.toNat r.isLt
  simpa [State.reg, State.setRegs] using h

theorem State.regsUpTo_getElem? (s : State) (x : RegId) (k : RegId) (h : k.toNat ≤ x.toNat) :
    (s.regsUpTo x)[k.toNat]? = some (s.reg k) := by
  have hk : k.toNat < 16 := k.isLt
  simp [State.regsUpTo, State.reg, Nat.lt_succ_of_le h]

@[simp] theorem State.regsUpTo_length (s : State) (x : RegId) :
    (s.regsUpTo x).length = x.toNat + 1 := by
  have : x.toNat < 16 := x.isLt
  simp only [State.regsUpTo, List.length_take, Vector.length_toList]
  omega

/-! ### The call stack -/

/-- All a push can do: at depth 16 nothing, else the next entry and the depth. -/
theorem State.push?_cases (s : State) (w : Word) :
    (s.sp.val = 16 ∧ s.push? w = none) ∨
    ∃ (h : s.sp.val < 16), s.push? w =
      some { s with stack := s.stack.set s.sp.val w h, sp := ⟨s.sp.val + 1, Nat.succ_lt_succ h⟩ } := by
  by_cases h : s.sp.val < 16
  · exact .inr ⟨h, dif_pos h⟩
  · exact .inl ⟨by have := s.sp.isLt; omega, dif_neg h⟩

/-- All a pop can do: at depth 0 nothing, else the most recent entry and the depth. -/
theorem State.pop?_cases (s : State) :
    (s.sp.val = 0 ∧ s.pop? = none) ∨
    ∃ (_ : 0 < s.sp.val) (h : s.sp.val - 1 < 16), s.pop? =
      some (s.stack[s.sp.val - 1], { s with sp := ⟨s.sp.val - 1, Nat.lt_succ_of_lt h⟩ }) := by
  by_cases h : 0 < s.sp.val
  · have h' : s.sp.val - 1 < 16 := by have := s.sp.isLt; omega
    refine .inr ⟨h, h', ?_⟩
    unfold State.pop?
    rw [if_pos h]
  · refine .inl ⟨by omega, ?_⟩
    unfold State.pop?
    rw [if_neg h]

/-! ### Timers and the latch -/

theorem tickTimer_toNat (b : Byte) : (tickTimer b).toNat = b.toNat - 1 := by
  unfold tickTimer
  split
  · simp_all
  · have : b.toNat ≠ 0 := fun h => ‹b ≠ 0› (BitVec.eq_of_toNat_eq h)
    have := b.isLt
    rw [BitVec.toNat_sub]
    simp
    omega

theorem State.takeKeyInput_eq (s : State) :
    s.takeKeyInput = { s with keys := s.keyInputs.headD s.keys, keyInputs := s.keyInputs.tail } := by
  unfold State.takeKeyInput
  cases h : s.keyInputs with
  | nil => cases s; simp_all
  | cons k ks => rfl

/-- The end of a cycle changes the timers and the latch only. -/
theorem State.endCycle_eq (s : State) :
    s.endCycle = { s with dt := tickTimer s.dt, st := tickTimer s.st, keys := s.keyInputs.headD s.keys,
                          keyInputs := s.keyInputs.tail } := by
  simp [State.endCycle, State.takeKeyInput_eq, State.tick]

/-! ### The lowest key -/

theorem lowestKey_eq_none {k : BitVec 16} : lowestKey k = none ↔ k = 0 := by
  simp only [lowestKey, List.find?_eq_none, List.mem_range]
  constructor
  · intro h
    refine BitVec.eq_of_getLsbD_eq fun i hi => ?_
    simpa using h i hi
  · rintro rfl; simp

theorem lowestKey_eq_some {k : BitVec 16} {n : Nat} :
    lowestKey k = some n ↔ n < 16 ∧ k.getLsbD n = true ∧ ∀ l, l < n → k.getLsbD l = false := by
  simp only [lowestKey, List.find?_range_eq_some, List.mem_range, Bool.not_eq_true']
  grind

end Sys2Proof.Machine
end

