-- ==== Sys2Proof/Laws/Display.lean ====
section
/-! SUPPORT. The draw of `44_display.md` R162 without its loops: it toggles each position of a list of
distinct positions once, so the order of the loops is unobservable (R163). -/

namespace Sys2Proof.Machine

/-! ### One pixel -/

theorem pixelOf_togglePixel (f : Vector (BitVec 64) 32) {c r c' r' : Nat} (hr : r < 32) (hc : c < 64)
    (hr' : r' < 32) :
    pixelOf (togglePixel f c r) c' r' = (pixelOf f c' r' ^^ decide (c' = c ∧ r' = r)) := by
  have hf : ∀ g : Vector (BitVec 64) 32, pixelOf g c' r' = g[r'].getLsbD c' := fun g => by
    simp [pixelOf, Vector.getD, hr']
  simp only [hf, togglePixel, dif_pos hr, Vector.getElem_set]
  by_cases h : r = r'
  · subst h
    simp only [if_true, BitVec.getLsbD_xor, BitVec.getLsbD_twoPow, and_true]
    by_cases h' : c' = c
    · simp [h', hc]
    · simp [h', Ne.symm h']
  · simp [h, Ne.symm h]

/-- The toggle of one position and its collision. -/
def Canvas.toggle (cv : Canvas) (p : Nat × Nat) : Canvas :=
  { fb := togglePixel cv.fb p.1 p.2, hit := cv.hit || pixelOf cv.fb p.1 p.2 }

/-- Toggling distinct positions in turn flips exactly those, and collides exactly when one was on. -/
theorem foldl_toggle {ps : List (Nat × Nat)} (hn : ps.Nodup) (hin : ∀ p ∈ ps, p.1 < 64 ∧ p.2 < 32)
    (cv : Canvas) :
    (∀ c r, r < 32 → pixelOf (ps.foldl Canvas.toggle cv).fb c r = (pixelOf cv.fb c r ^^ decide ((c, r) ∈ ps))) ∧
    (ps.foldl Canvas.toggle cv).hit = (cv.hit || ps.any fun p => pixelOf cv.fb p.1 p.2) := by
  induction ps generalizing cv with
  | nil => simp
  | cons p ps ih =>
    obtain ⟨hp, hn⟩ := List.nodup_cons.1 hn
    obtain ⟨hc, hr⟩ := hin p List.mem_cons_self
    obtain ⟨ih1, ih2⟩ := ih hn (fun q hq => hin q (List.mem_cons_of_mem _ hq)) (cv.toggle p)
    refine ⟨fun c r h => ?_, ?_⟩
    · rw [List.foldl_cons, ih1 c r h]
      simp only [Canvas.toggle, pixelOf_togglePixel _ hr hc h]
      by_cases hq : (c, r) = p
      · subst hq; simp [hp]
      · have : ¬ (c = p.1 ∧ r = p.2) := fun e => hq (Prod.ext e.1 e.2)
        simp [hq, this]
    · rw [List.foldl_cons, ih2]
      simp only [Canvas.toggle, List.any_cons, Bool.or_assoc]
      have hsame : ∀ q ∈ ps, pixelOf (togglePixel cv.fb p.1 p.2) q.1 q.2 = pixelOf cv.fb q.1 q.2 := by
        intro q hq
        rw [pixelOf_togglePixel _ hr hc (hin q (List.mem_cons_of_mem _ hq)).2]
        have : ¬ (q.1 = p.1 ∧ q.2 = p.2) := fun e => hp (Prod.ext e.1 e.2 ▸ hq)
        simp [this]
      congr 2
      rw [Bool.eq_iff_iff, List.any_eq_true, List.any_eq_true]
      exact exists_congr fun q => and_congr_right fun hq => by rw [hsame q hq]

/-! ### The positions of a sprite -/

/-- The positions one sprite row toggles. -/
def rowPositions (ox oy j : Nat) (b : Byte) : List (Nat × Nat) :=
  ((List.range 8).filter fun col => b.getLsbD (7 - col)).map fun col => ((ox + col) % 64, (oy + j) % 32)

/-- The positions sprite rows toggle, from row `j` on. -/
def spritePositions (ox oy : Nat) : Nat → List Byte → List (Nat × Nat)
  | _, [] => []
  | j, b :: bs => rowPositions ox oy j b ++ spritePositions ox oy (j + 1) bs

theorem drawRow_eq (ox oy j : Nat) (b : Byte) (cv : Canvas) :
    drawRow ox oy j b cv = (rowPositions ox oy j b).foldl Canvas.toggle cv := by
  simp only [drawRow, rowPositions, List.foldl_map, List.foldl_filter]
  rfl

theorem drawRows_eq (ox oy j : Nat) (bs : List Byte) (cv : Canvas) :
    drawRows ox oy j bs cv = (spritePositions ox oy j bs).foldl Canvas.toggle cv := by
  induction bs generalizing j cv with
  | nil => rfl
  | cons b bs ih => simp only [drawRows, spritePositions, List.foldl_append, ih, drawRow_eq]

theorem mem_rowPositions {ox oy j : Nat} {b : Byte} {p : Nat × Nat} :
    p ∈ rowPositions ox oy j b ↔
      ∃ col, col < 8 ∧ b.getLsbD (7 - col) = true ∧ p = ((ox + col) % 64, (oy + j) % 32) := by
  simp [rowPositions, and_assoc, @eq_comm _ p]

theorem mem_spritePositions {ox oy j : Nat} {bs : List Byte} {p : Nat × Nat} :
    p ∈ spritePositions ox oy j bs ↔
      ∃ k col b, bs[k]? = some b ∧ col < 8 ∧ b.getLsbD (7 - col) = true ∧
        p = ((ox + col) % 64, (oy + (j + k)) % 32) := by
  induction bs generalizing j with
  | nil => simp [spritePositions]
  | cons b bs ih =>
    simp only [spritePositions, List.mem_append, mem_rowPositions, ih]
    constructor
    · rintro (⟨col, h⟩ | ⟨k, col, b', hk, h⟩)
      · exact ⟨0, col, b, rfl, h⟩
      · exact ⟨k + 1, col, b', hk, by simpa [Nat.add_assoc, Nat.add_comm 1 k] using h⟩
    · rintro ⟨k, col, b', hk, h⟩
      cases k with
      | zero => obtain rfl := Option.some.inj hk; exact .inl ⟨col, h⟩
      | succ k => exact .inr ⟨k, col, b', hk, by simpa [Nat.add_assoc, Nat.add_comm 1 k] using h⟩

/-- The eight columns of a row are distinct (R163). -/
theorem nodup_rowPositions (ox oy j : Nat) (b : Byte) : (rowPositions ox oy j b).Nodup := by
  refine List.Nodup.map_on ?_ (List.nodup_range.filter _)
  intro c hc c' hc' h
  simp only [List.mem_filter, List.mem_range] at hc hc'
  have := (Prod.mk.inj h).1
  omega

/-- No pixel is visited twice by a sprite of at most 32 rows (R163). -/
theorem nodup_spritePositions (ox oy j : Nat) (bs : List Byte) (h : bs.length ≤ 32) :
    (spritePositions ox oy j bs).Nodup := by
  induction bs generalizing j with
  | nil => exact List.nodup_nil
  | cons b bs ih =>
    simp only [List.length_cons] at h
    refine List.Nodup.append (nodup_rowPositions ox oy j b) (ih (j + 1) (by omega)) ?_
    intro p hp hp'
    obtain ⟨col, -, -, rfl⟩ := mem_rowPositions.1 hp
    obtain ⟨k, col', b', hk, -, -, he⟩ := mem_spritePositions.1 hp'
    have hk : k < bs.length := (List.getElem?_eq_some_iff.1 hk).1
    have := (Prod.mk.inj he).2
    omega

theorem spritePositions_in_grid {ox oy j : Nat} {bs : List Byte} {p : Nat × Nat}
    (h : p ∈ spritePositions ox oy j bs) : p.1 < 64 ∧ p.2 < 32 := by
  obtain ⟨k, col, b, -, -, -, rfl⟩ := mem_spritePositions.1 h
  exact ⟨Nat.mod_lt _ (by decide), Nat.mod_lt _ (by decide)⟩

/-- What a draw of at most 32 rows does to a pixel, and its collision flag (R162 to R164). -/
theorem drawRows_spec (ox oy : Nat) {bs : List Byte} (h : bs.length ≤ 32) (cv : Canvas) :
    (∀ c r, r < 32 → pixelOf (drawRows ox oy 0 bs cv).fb c r =
      (pixelOf cv.fb c r ^^ decide ((c, r) ∈ spritePositions ox oy 0 bs))) ∧
    (drawRows ox oy 0 bs cv).hit =
      (cv.hit || (spritePositions ox oy 0 bs).any fun p => pixelOf cv.fb p.1 p.2) := by
  rw [drawRows_eq]
  exact foldl_toggle (nodup_spritePositions ox oy 0 bs h) (fun _ => spritePositions_in_grid) cv

end Sys2Proof.Machine
end

