-- ==== Sys2Proof/Laws/Memory.lean ====
section
/-! SUPPORT. What the memory operations do: reading what was written, leaving the rest alone, keeping
the canonical form, and that a canonical memory is determined by what it reads as. -/

namespace Sys2Proof.Machine

/-! ### Cells -/

variable {g : GlyphTable}

@[simp] theorem peekCells_nil (a : Nat) : peekCells g [] a = unlisted g a := rfl

theorem wfCells_cons {lo k : Nat} {b : Byte} {rest : List Host.Cell} :
    wfCells g lo ((k, b) :: rest) = true ↔
      lo ≤ k ∧ k ≤ 0xFFF ∧ b ≠ unlisted g k ∧ wfCells g (k + 1) rest = true := by
  simp [wfCells, and_assoc]

/-- A canonical memory lists nothing below where it starts. -/
theorem peekCells_of_lt {lo a : Nat} {m : List Host.Cell} (hw : wfCells g lo m = true) (h : a < lo) :
    peekCells g m a = unlisted g a := by
  cases m with
  | nil => rfl
  | cons kb rest =>
    obtain ⟨hk, -⟩ := wfCells_cons.1 hw
    have : a < kb.1 := by omega
    simp [peekCells, this]

/-- A canonical memory lists nothing above 0xFFF. -/
theorem peekCells_of_top_lt {lo a : Nat} {m : List Host.Cell} (hw : wfCells g lo m = true) (h : 0xFFF < a) :
    peekCells g m a = unlisted g a := by
  induction m generalizing lo with
  | nil => rfl
  | cons kb rest ih =>
    obtain ⟨-, hk, -, hr⟩ := wfCells_cons.1 hw
    simp [peekCells, show ¬ a < kb.1 by omega, show a ≠ kb.1 by omega, ih hr]

/-- A canonical form stays one when less is required of its first address. -/
theorem wfCells_mono {lo lo' : Nat} {m : List Host.Cell} (hw : wfCells g lo m = true) (h : lo' ≤ lo) :
    wfCells g lo' m = true := by
  cases m with
  | nil => rfl
  | cons kb rest =>
    obtain ⟨hk, h3⟩ := wfCells_cons.1 hw
    exact wfCells_cons.2 ⟨by omega, h3⟩

/-- Reading any address after a write: the byte written there, elsewhere what was read before. -/
theorem peekCells_pokeCells {m : List Host.Cell} {lo : Nat} (hw : wfCells g lo m = true) (a : Nat) (b : Byte) (c : Nat) :
    peekCells g (pokeCells g m a b) c = if c = a then b else peekCells g m c := by
  induction m generalizing lo with
  | nil =>
    by_cases hb : b = unlisted g a <;> by_cases hc : c = a <;> simp [pokeCells, peekCells, hb, hc]
  | cons kb rest ih =>
    obtain ⟨k, old⟩ := kb
    obtain ⟨-, -, -, hr⟩ := wfCells_cons.1 hw
    by_cases h1 : a < k
    · by_cases hb : b = unlisted g a
      · by_cases hc : c = a <;> simp [pokeCells, peekCells, h1, hb, hc]
      · rcases Nat.lt_trichotomy c a with hc | hc | hc
        · have : c < k := by omega
          simp [pokeCells, peekCells, h1, hb, hc, this, hc.ne]
        · simp [pokeCells, peekCells, h1, hb, hc]
        · simp [pokeCells, peekCells, h1, hb, hc.ne', hc.not_gt]
    · by_cases h2 : a = k
      · subst h2
        by_cases hb : b = unlisted g a
        · rcases Nat.lt_trichotomy c a with hc | hc | hc
          · simp [pokeCells, peekCells, hb, hc, hc.ne, peekCells_of_lt hr (show c < a + 1 by omega)]
          · simp [pokeCells, hb, hc, peekCells_of_lt hr (Nat.lt_succ_self a)]
          · simp [pokeCells, peekCells, hb, hc.ne', hc.not_gt]
        · rcases Nat.lt_trichotomy c a with hc | hc | hc
          · simp [pokeCells, peekCells, hb, hc, hc.ne]
          · simp [pokeCells, peekCells, hb, hc]
          · simp [pokeCells, peekCells, hb, hc.ne', hc.not_gt]
      · simp only [pokeCells, peekCells, h1, h2, if_false, ih hr]
        by_cases hc : c = a
        · simp [hc, h1, h2]
        · simp [hc]

/-- A write in range keeps the canonical form. -/
theorem wfCells_pokeCells {m : List Host.Cell} {lo a : Nat} (b : Byte) (hw : wfCells g lo m = true) (hl : lo ≤ a)
    (ha : a ≤ 0xFFF) : wfCells g lo (pokeCells g m a b) = true := by
  induction m generalizing lo with
  | nil =>
    by_cases hb : b = unlisted g a
    · simp [pokeCells, hb, wfCells]
    · simp only [pokeCells, hb, if_false]
      exact wfCells_cons.2 ⟨hl, ha, hb, rfl⟩
  | cons kb rest ih =>
    obtain ⟨k, old⟩ := kb
    obtain ⟨hk, hkt, hne, hr⟩ := wfCells_cons.1 hw
    simp only [pokeCells]
    by_cases h1 : a < k
    · simp only [h1, if_true]
      by_cases hb : b = unlisted g a
      · simpa only [hb, if_true] using hw
      · simp only [hb, if_false]
        exact wfCells_cons.2 ⟨hl, ha, hb, wfCells_cons.2 ⟨h1, hkt, hne, hr⟩⟩
    · by_cases h2 : a = k
      · subst h2
        simp only [lt_irrefl, if_false, if_true]
        by_cases hb : b = unlisted g a
        · simpa only [hb, if_true] using wfCells_mono hr (by omega)
        · simp only [hb, if_false]
          exact wfCells_cons.2 ⟨hk, hkt, hb, hr⟩
      · simp only [h1, h2, if_false]
        exact wfCells_cons.2 ⟨hk, hkt, hne, ih hr (by omega)⟩

/-- Two canonical memories that read alike are the same list. -/
theorem cells_eq_of_peek {m m' : List Host.Cell} {lo : Nat} (hw : wfCells g lo m = true) (hw' : wfCells g lo m' = true)
    (h : ∀ a, peekCells g m a = peekCells g m' a) : m = m' := by
  induction m generalizing m' lo with
  | nil =>
    cases m' with
    | nil => rfl
    | cons kb rest =>
      obtain ⟨k, b⟩ := kb
      obtain ⟨-, -, hne, -⟩ := wfCells_cons.1 hw'
      exact absurd (by simpa [peekCells] using (h k).symm) hne
  | cons kb rest ih =>
    obtain ⟨k, b⟩ := kb
    obtain ⟨hk, -, hne, hr⟩ := wfCells_cons.1 hw
    cases m' with
    | nil => exact absurd (by simpa [peekCells] using h k) hne
    | cons kb' rest' =>
      obtain ⟨k', b'⟩ := kb'
      obtain ⟨hk', -, hne', hr'⟩ := wfCells_cons.1 hw'
      rcases Nat.lt_trichotomy k k' with hlt | rfl | hlt
      · exact absurd (by simpa [peekCells, hlt] using h k) hne
      · have hb : b = b' := by simpa [peekCells] using h k
        subst hb
        rw [ih hr hr' fun a => ?_]
        by_cases ha : a < k + 1
        · rw [peekCells_of_lt hr ha, peekCells_of_lt hr' ha]
        · simpa [peekCells, show ¬ a < k by omega, show a ≠ k by omega] using h a
      · exact absurd (by simpa [peekCells, hlt] using (h k').symm) hne'

/-! ### Memories -/

namespace Memory

@[simp] theorem poke_glyphs (m : Memory) (a : Nat) (b : Byte) : (m.poke a b).glyphs = m.glyphs := rfl

@[simp] theorem pokeList_glyphs (bs : List Byte) (m : Memory) (a : Nat) :
    (m.pokeList a bs).glyphs = m.glyphs := by
  induction bs generalizing m a with
  | nil => rfl
  | cons b bs ih => exact ih _ _

/-- Reading any address after a write: the byte written there, elsewhere what was read before. -/
theorem peek_poke {m : Memory} (hw : m.wf = true) (a : Nat) (b : Byte) (c : Nat) :
    peek (poke m a b) c = if c = a then b else peek m c := peekCells_pokeCells hw a b c

theorem wf_poke {m : Memory} {a : Nat} (b : Byte) (hw : m.wf = true) (ha : a ≤ 0xFFF) :
    (poke m a b).wf = true := wfCells_pokeCells b hw (Nat.zero_le a) ha

/-- Writing bytes in range keeps the canonical form. -/
theorem wf_pokeList {bs : List Byte} {m : Memory} {a : Nat} (hw : m.wf = true)
    (h : bs = [] ∨ a + bs.length ≤ 0x1000) : (pokeList m a bs).wf = true := by
  induction bs generalizing m a with
  | nil => exact hw
  | cons b bs ih =>
    simp only [reduceCtorEq, List.length_cons, false_or] at h
    exact ih (wf_poke b hw (by omega)) (.inr (by omega))

/-- Reading any address after writing bytes: the byte written there, elsewhere what was read before. -/
theorem peek_pokeList {bs : List Byte} {m : Memory} {a : Nat} (hw : m.wf = true)
    (h : a + bs.length ≤ 0x1000) (c : Nat) :
    peek (pokeList m a bs) c = if a ≤ c then bs.getD (c - a) (peek m c) else peek m c := by
  induction bs generalizing m a with
  | nil => simp [pokeList]
  | cons b bs ih =>
    simp only [List.length_cons] at h
    simp only [pokeList]
    rw [ih (wf_poke b hw (by omega)) (by omega), peek_poke hw]
    rcases Nat.lt_trichotomy c a with hc | hc | hc
    · simp [hc.ne, show ¬ a + 1 ≤ c by omega, show ¬ a ≤ c by omega]
    · subst hc; simp
    · obtain ⟨d, rfl⟩ := Nat.exists_eq_add_of_lt hc
      simp [show a + d + 1 - a = d + 1 by omega, show a + d + 1 - (a + 1) = d by omega,
        show a + d + 1 ≠ a by omega, show a ≤ a + d + 1 by omega]

/-- Two canonical memories with one glyph table that read alike are the same. -/
theorem eq_of_peek {m m' : Memory} (hg : m.glyphs = m'.glyphs) (hw : m.wf = true) (hw' : m'.wf = true)
    (h : ∀ a, peek m a = peek m' a) : m = m' := by
  obtain ⟨g, cs⟩ := m
  obtain ⟨g', cs'⟩ := m'
  obtain rfl : g = g' := hg
  exact congrArg _ (cells_eq_of_peek hw hw' h)

/-- What reset leaves: the table, then zeros. -/
theorem peek_reset (g : GlyphTable) (a : Nat) : peek { glyphs := g, cells := [] } a = g.getD a 0 := rfl

/-! ### The checked accesses -/

theorem read?_eq_some {m : Memory} {a : Nat} {b : Byte} :
    read? m a = some b ↔ a ≤ 0xFFF ∧ peek m a = b := by
  simp [read?]

@[simp] theorem read?_of_le {m : Memory} {a : Nat} (h : a ≤ 0xFFF) : read? m a = some (peek m a) := by
  simp [read?, h]

@[simp] theorem read?_of_lt {m : Memory} {a : Nat} (h : 0xFFF < a) : read? m a = none := by
  simp [read?, Nat.not_le.2 h]

theorem read?_congr {m m' : Memory} {a : Nat} (h : a ≤ 0xFFF → peek m a = peek m' a) :
    read? m a = read? m' a := by
  by_cases ha : a ≤ 0xFFF
  · simp [ha, h ha]
  · simp [read?, ha]

end Memory

/-! ### Blocks -/

theorem blockInBounds_iff {a n : Nat} : blockInBounds a n = true ↔ n = 0 ∨ a + n ≤ 0x1000 := by
  simp [blockInBounds]

namespace Memory

theorem readBlock_of_le {m : Memory} {a n : Nat} (h : n = 0 ∨ a + n ≤ 0x1000) :
    readBlock m a n = some ((List.range n).map fun k => peek m (a + k)) :=
  if_pos (blockInBounds_iff.2 h)

theorem readBlock_of_lt {m : Memory} {a n : Nat} (hn : 0 < n) (h : 0x1000 < a + n) :
    readBlock m a n = none :=
  if_neg fun hb => by rcases blockInBounds_iff.1 hb with h' | h' <;> omega

theorem writeBlock_of_le {m : Memory} {a : Nat} {bs : List Byte} (h : a + bs.length ≤ 0x1000) :
    writeBlock m a bs = some (pokeList m a bs) :=
  if_pos (blockInBounds_iff.2 (.inr h))

theorem writeBlock_of_lt {m : Memory} {a : Nat} {bs : List Byte} (hn : 0 < bs.length)
    (h : 0x1000 < a + bs.length) : writeBlock m a bs = none :=
  if_neg fun hb => by rcases blockInBounds_iff.1 hb with h' | h' <;> omega

/-- A block write that is done keeps the canonical form. -/
theorem wf_writeBlock {m m' : Memory} {a : Nat} {bs : List Byte} (hw : m.wf = true)
    (h : writeBlock m a bs = some m') : m'.wf = true := by
  unfold writeBlock at h
  split at h
  · rename_i hb
    obtain rfl := Option.some.inj h
    refine wf_pokeList hw ?_
    rcases blockInBounds_iff.1 hb with h' | h'
    · exact .inl (List.length_eq_zero_iff.1 h')
    · exact .inr h'
  · cases h

/-- The `k`-th byte written reads back. -/
theorem read?_pokeList_inside {m : Memory} {a k : Nat} {bs : List Byte} (hw : m.wf = true)
    (h : a + bs.length ≤ 0x1000) (hk : k < bs.length) : read? (pokeList m a bs) (a + k) = some bs[k] := by
  rw [read?_eq_some]
  exact ⟨by omega, by simp [peek_pokeList hw h, hk]⟩

/-- Outside the bytes written nothing changes. -/
theorem read?_pokeList_outside {m : Memory} {a c : Nat} {bs : List Byte} (hw : m.wf = true)
    (h : a + bs.length ≤ 0x1000) (hc : ¬ (a ≤ c ∧ c < a + bs.length)) :
    read? (pokeList m a bs) c = read? m c := by
  refine read?_congr fun _ => ?_
  rw [peek_pokeList hw h]
  split
  · rw [List.getD_eq_default _ _ (by omega)]
  · rfl

end Memory

end Sys2Proof.Machine
end

