-- ==== Sys2Proof/Laws/Step.lean ====
section
/-! SUPPORT. Everything the shared operations of a cycle can do, said once: the fetch, a block store, a
handler's answer, the commit, the step. -/

namespace Sys2Proof.Machine

/-! ### The fetch (`40_cycle.md` R101) -/

theorem State.fetch_of_le {s : State} (h : s.pc.toNat ≤ 0xFFE) :
    s.fetch = some (wordOfBytes (s.mem.peek s.pc.toNat) (s.mem.peek (s.pc.toNat + 1))) := by
  simp [State.fetch, Memory.read?_of_le (show s.pc.toNat ≤ 0xFFF by omega),
    Memory.read?_of_le (show s.pc.toNat + 1 ≤ 0xFFF by omega), wordOfBytes]

theorem State.fetch_of_lt {s : State} (h : 0xFFE < s.pc.toNat) : s.fetch = none := by
  simp only [State.fetch, Memory.read?_of_lt (show 0xFFF < s.pc.toNat + 1 by omega)]
  split <;> simp_all

theorem State.fetch_eq_none {s : State} : s.fetch = none ↔ 0xFFE < s.pc.toNat := by
  rcases Nat.lt_or_ge 0xFFE s.pc.toNat with h | h
  · simp [State.fetch_of_lt h, h]
  · simp [State.fetch_of_le h, Nat.not_lt.2 h]

theorem State.pc_of_fetch {s : State} {ir : Word} (h : s.fetch = some ir) : s.pc.toNat ≤ 0xFFE := by
  by_contra hlt
  rw [State.fetch_of_lt (by omega)] at h
  cases h

/-! ### A block store (`43_index_memory.md` R150) -/

theorem storeBlock_of_le {bs : List Byte} {s : State} (h : s.blockBase + bs.length ≤ 0x1000) :
    storeBlock bs s = .next (s.setMem (s.mem.pokeList s.blockBase bs)).advance := by
  simp [storeBlock, Memory.writeBlock_of_le h]

theorem storeBlock_of_lt {bs : List Byte} {s : State} (hn : 0 < bs.length)
    (h : 0x1000 < s.blockBase + bs.length) :
    storeBlock bs s = .next (s.latch .outOfBoundsMemory) := by
  simp [storeBlock, Memory.writeBlock_of_lt hn h, raiseFault]

/-! ### The commit and the step (R109, R110, R112) -/

/-- All a commit can do with a handler's next state. -/
theorem commit_cases {s u t : State} (h : commit s (.next u) = .next t) :
    (u.fault = .none ∧ t = u.endCycle) ∨ (u.fault ≠ .none ∧ t = s.latch u.fault) := by
  by_cases hf : u.fault = .none
  · refine .inl ⟨hf, ?_⟩
    simpa [commit, hf, eq_comm] using h
  · refine .inr ⟨hf, ?_⟩
    simpa [commit, hf, raiseFault, eq_comm] using h

/-- All a step can do: nothing while halted; a fetch fault; or the handler of the fetched word, committed
or abandoned. -/
theorem step_cases {s t : State} (h : step s = .next t) :
    (s.fault ≠ .none ∧ t = s) ∨
    (s.fault = .none ∧ 0xFFE < s.pc.toNat ∧ t = s.latch .outOfBoundsMemory) ∨
    (s.fault = .none ∧ ∃ ir u, s.fetch = some ir ∧ exec (decode ir) s.clearReport = .next u ∧
      ((u.fault = .none ∧ t = u.endCycle) ∨ (u.fault ≠ .none ∧ t = s.latch u.fault))) := by
  by_cases hf : s.fault = .none
  · refine .inr ?_
    unfold step cycle at h
    rw [if_pos hf] at h
    cases hir : s.fetch with
    | none =>
      rw [hir] at h
      refine .inl ⟨hf, State.fetch_eq_none.1 hir, ?_⟩
      simpa [raiseFault, eq_comm] using h
    | some ir =>
      rw [hir] at h
      change commit s (exec (decode ir) s.clearReport) = .next t at h
      cases he : exec (decode ir) s.clearReport with
      | next u => rw [he] at h; exact .inr ⟨hf, ir, u, rfl, he, commit_cases h⟩
      | fault r => cases r
      | refused r => rw [he] at h; cases h
  · refine .inl ⟨hf, ?_⟩
    unfold step cycle at h
    rw [if_neg hf] at h
    simpa [eq_comm] using h

/-- The step of a running core from its handler's answer. -/
theorem step_of_exec {s u : State} {ir : Word} (hf : s.fault = .none) (hir : s.fetch = some ir)
    (he : exec (decode ir) s.clearReport = .next u) :
    step s = if u.fault = .none then .next u.endCycle else .next (s.latch u.fault) := by
  simp [step, cycle, hf, hir, runWord, he, commit, raiseFault]

theorem step_of_halted {s : State} (hf : s.fault ≠ .none) : step s = .next s := by
  simp [step, cycle, hf]

theorem step_of_fetch_fault {s : State} (hf : s.fault = .none) (hpc : 0xFFE < s.pc.toNat) :
    step s = .next (s.latch .outOfBoundsMemory) := by
  simp [step, cycle, hf, State.fetch_of_lt hpc, raiseFault]

/-! ### Runs -/

@[simp] theorem run_zero (s : State) : Host.Core.run core 0 s = .next s := rfl

theorem run_succ {s u : State} (k : Nat) (h : step s = .next u) :
    Host.Core.run core (k + 1) s = Host.Core.run core k u := by
  have h' : core.step s = .next u := h
  simp only [Host.Core.run, h']

/-- A run of one cycle more is one step and then the rest. -/
theorem run_succ_cases {s t : State} {k : Nat} (h : Host.Core.run core (k + 1) s = .next t) :
    ∃ u, step s = .next u ∧ Host.Core.run core k u = .next t := by
  have hs : core.step s = step s := rfl
  cases he : step s with
  | next u => exact ⟨u, rfl, by rwa [run_succ k he] at h⟩
  | fault r => cases r
  | refused r => simp only [Host.Core.run, hs, he] at h; cases h

/-- A halted core stays where it is for any number of cycles (R110). -/
theorem run_of_halted {s : State} (hf : s.fault ≠ .none) (k : Nat) : Host.Core.run core k s = .next s := by
  induction k with
  | zero => rfl
  | succ k ih => rw [run_succ k (step_of_halted hf), ih]

end Sys2Proof.Machine
end

