-- ==== Sys2Proof/Laws/Exec.lean ====
section
/-! SUPPORT. Everything a handler can do, said once per handler that branches: every other handler's
answer is its definition. -/

namespace Sys2Proof.Machine

/-- Every handler answers a next state: nothing stops the machine (log 5). -/
theorem exec_answers (i : Instr) (s : State) : ∃ t, exec i s = .next t := by
  cases he : exec i s with
  | next t => exact ⟨t, rfl⟩
  | fault r => cases r
  | refused r =>
    cases i <;> try cases he
    case ret => rcases s.pop?_cases with ⟨_, hp⟩ | ⟨_, _, hp⟩ <;> simp [exec, execRet, hp, raiseFault] at he
    case call => rcases s.push?_cases s.npc with ⟨_, hp⟩ | ⟨_, hp⟩ <;> simp [exec, execCall, hp, raiseFault] at he
    case drw => simp only [exec, execDrw] at he; split at he <;> simp [raiseFault] at he
    case ldVxK => simp only [exec, execLdVxK] at he; split at he <;> simp at he
    case ldB => simp only [exec, execLdB, storeBlock] at he; split at he <;> simp [raiseFault] at he
    case storeRegs => simp only [exec, execStoreRegs, storeBlock] at he; split at he <;> simp [raiseFault] at he
    case loadRegs => simp only [exec, execLoadRegs] at he; split at he <;> simp [raiseFault] at he

/-- `RET` (R121): underflow at depth 0, else the pop. -/
theorem execRet_cases {s t : State} (h : execRet s = .next t) :
    (s.sp.val = 0 ∧ t = s.latch .stackUnderflow) ∨
    ∃ (_ : 0 < s.sp.val) (h' : s.sp.val - 1 < 16),
      t = ({ s with sp := ⟨s.sp.val - 1, Nat.lt_succ_of_lt h'⟩ } : State).setPC s.stack[s.sp.val - 1] := by
  rcases s.pop?_cases with ⟨h0, he⟩ | ⟨h0, h1, he⟩
  · refine .inl ⟨h0, ?_⟩
    simpa [execRet, he, raiseFault, eq_comm] using h
  · refine .inr ⟨h0, h1, ?_⟩
    simpa [execRet, he, eq_comm] using h

/-- `CALL` (R123): overflow at depth 16, else the push and the jump. -/
theorem execCall_cases {nnn : Addr12} {s t : State} (h : execCall nnn s = .next t) :
    (s.sp.val = 16 ∧ t = s.latch .stackOverflow) ∨
    ∃ h' : s.sp.val < 16,
      t = ({ s with stack := s.stack.set s.sp.val s.npc h',
                    sp := ⟨s.sp.val + 1, Nat.succ_lt_succ h'⟩ } : State).setPC (addrOperand nnn) := by
  rcases s.push?_cases s.npc with ⟨h0, he⟩ | ⟨h0, he⟩
  · refine .inl ⟨h0, ?_⟩
    simpa [execCall, he, raiseFault, eq_comm] using h
  · refine .inr ⟨h0, ?_⟩
    simpa [execCall, he, eq_comm] using h

/-- A block store (R150): every byte is in range and lands, or none does. -/
theorem storeBlock_cases {bs : List Byte} {s t : State} (hn : 0 < bs.length)
    (h : storeBlock bs s = .next t) :
    (0x1000 < s.blockBase + bs.length ∧ t = s.latch .outOfBoundsMemory) ∨
    (s.blockBase + bs.length ≤ 0x1000 ∧ t = (s.setMem (s.mem.pokeList s.blockBase bs)).advance) := by
  rcases Nat.lt_or_ge 0x1000 (s.blockBase + bs.length) with hl | hl
  · rw [storeBlock_of_lt hn hl] at h
    exact .inl ⟨hl, (Host.Outcome.next.inj h).symm⟩
  · rw [storeBlock_of_le hl] at h
    exact .inr ⟨hl, (Host.Outcome.next.inj h).symm⟩

/-- `LD Vx, [I]` (R157): every byte is in range and is loaded, or none is. -/
theorem execLoadRegs_cases {x : RegId} {s t : State} (h : execLoadRegs x s = .next t) :
    (0xFFF < s.blockBase + x.toNat ∧ t = s.latch .outOfBoundsMemory) ∨
    (s.blockBase + x.toNat ≤ 0xFFF ∧
      t = (s.setRegs ((List.range (x.toNat + 1)).map fun k => s.mem.peek (s.blockBase + k))).advance) := by
  rcases Nat.lt_or_ge 0xFFF (s.blockBase + x.toNat) with hl | hl
  · rw [execLoadRegs, Memory.readBlock_of_lt (Nat.succ_pos _) (by omega)] at h
    exact .inl ⟨hl, (Host.Outcome.next.inj h).symm⟩
  · rw [execLoadRegs, Memory.readBlock_of_le (.inr (by omega))] at h
    exact .inr ⟨hl, (Host.Outcome.next.inj h).symm⟩

/-- `DRW` (R162, R166): the sprite is in range and is drawn, or nothing happens but the fault. -/
theorem execDrw_cases {x y : RegId} {n : Nibble} {s t : State} (h : execDrw x y n s = .next t) :
    (0 < n.toNat ∧ 0x1000 < s.blockBase + n.toNat ∧ t = s.latch .outOfBoundsMemory) ∨
    ((n.toNat = 0 ∨ s.blockBase + n.toNat ≤ 0x1000) ∧
      ∃ cv, cv = drawRows ((s.reg x).toNat % 64) ((s.reg y).toNat % 32) 0
          ((List.range n.toNat).map fun k => s.mem.peek (s.blockBase + k)) ⟨s.fb, false⟩ ∧
        t = ((s.setFB cv.fb).setReg VF (flagByte cv.hit)).advance) := by
  by_cases hl : n.toNat = 0 ∨ s.blockBase + n.toNat ≤ 0x1000
  · rw [execDrw, Memory.readBlock_of_le hl] at h
    exact .inr ⟨hl, _, rfl, (Host.Outcome.next.inj h).symm⟩
  · obtain ⟨h0, h1⟩ : 0 < n.toNat ∧ 0x1000 < s.blockBase + n.toNat := by omega
    rw [execDrw, Memory.readBlock_of_lt h0 h1] at h
    exact .inl ⟨h0, h1, (Host.Outcome.next.inj h).symm⟩

/-- `LD Vx, K` (R174): the rewind with no key down, else the lowest key. -/
theorem execLdVxK_cases {x : RegId} {s t : State} (h : execLdVxK x s = .next t) :
    (s.keys = 0 ∧ t = s.setPC (s.npc - 2)) ∨
    ∃ k, lowestKey s.keys = some k ∧ t = (s.setReg x (BitVec.ofNat 8 k)).advance := by
  cases hk : lowestKey s.keys with
  | none =>
    rw [execLdVxK, hk] at h
    exact .inl ⟨lowestKey_eq_none.1 hk, (Host.Outcome.next.inj h).symm⟩
  | some k =>
    rw [execLdVxK, hk] at h
    exact .inr ⟨k, rfl, (Host.Outcome.next.inj h).symm⟩

end Sys2Proof.Machine
end

