-- ==== Sys2Proof/Laws/Frame.lean ====
section
/-! SUPPORT. How a frame is shown: a state that differs in `PC`, or in `PC` and registers, alone. -/

namespace Sys2Proof.Machine

/-- A state that differs in `PC` alone. -/
theorem OnlyPCChanges.of_setPC (s : State) (p : Word) : OnlyPCChanges s (s.setPC p) :=
  ⟨fun _ _ => rfl, rfl, fun _ => rfl, rfl, ⟨rfl, rfl⟩, ⟨rfl, rfl⟩, fun _ _ _ _ => rfl, ⟨rfl, rfl⟩, rfl, ⟨rfl, rfl⟩⟩

/-- A state that differs in `PC` and in the registers `D` alone. -/
theorem OnlyRegsChange.of_regs {D : RegId → Prop} {s t : State} (v : Vector Byte 16) (p : Word)
    (ht : t = { s with v := v, pc := p }) (hr : SameRegsBut D s t) : OnlyRegsChange D s t := by
  subst ht
  exact ⟨hr, rfl, fun _ => rfl, rfl, ⟨rfl, rfl⟩, ⟨rfl, rfl⟩, fun _ _ _ _ => rfl, ⟨rfl, rfl⟩, rfl, ⟨rfl, rfl⟩⟩

/-- The frame of an instruction whose whole effect is one register and the sequential `PC`. -/
theorem OnlyRegsChange.of_setReg (s : State) (x : RegId) (b : Byte) :
    OnlyRegsChange (fun r => r = x) s (s.setReg x b).advance :=
  .of_regs _ _ rfl fun r hr => by simp [State.reg_setReg, hr]

/-- The frame of an instruction that writes a result and then the flag. -/
theorem OnlyRegsChange.of_setResultFlag (s : State) (x : RegId) (res : Byte) (flag : Bool) :
    OnlyRegsChange (fun r => r = x ∨ r = VF) s (s.setResultFlag x res flag).advance :=
  .of_regs _ _ rfl fun r hr => by
    obtain ⟨h1, h2⟩ := not_or.1 hr
    simp [State.reg_setResultFlag, h1, h2]

/-- A frame composes: what two handlers in turn leave alone. -/
theorem OnlyPCChanges.trans {s t u : State} (h : OnlyPCChanges s t) (h' : OnlyPCChanges t u) :
    OnlyPCChanges s u where
  regs r hr := (h'.regs r hr).trans (h.regs r hr)
  index := h'.index.trans h.index
  memory a := (h'.memory a).trans (h.memory a)
  config := h'.config.trans h.config
  stack := ⟨h'.stack.1.trans h.stack.1, h'.stack.2.trans h.stack.2⟩
  timers := ⟨h'.timers.1.trans h.timers.1, h'.timers.2.trans h.timers.2⟩
  display c r hc hr := (h'.display c r hc hr).trans (h.display c r hc hr)
  inputs := ⟨h'.inputs.1.trans h.inputs.1, h'.inputs.2.trans h.inputs.2⟩
  draws := h'.draws.trans h.draws
  reports := ⟨h'.reports.1.trans h.reports.1, h'.reports.2.trans h.reports.2⟩

end Sys2Proof.Machine
end

