-- ==== Sys2Proof/Laws/PerInstr.lean ====
section
/-! SUPPORT. Statements made instruction by instruction: one lemma per constructor of `Instr`. -/

namespace Sys2Proof.Laws.EncodeDecode

/-- A well-formed instruction's word decodes to the instruction (`30_encoding.md` R85, R88). -/
def Statement (i : Instr) : Prop := i.wf = true → decode (encode i) = i

theorem cls : Statement .cls := fun _ => rfl
theorem ret : Statement .ret := fun _ => rfl
theorem jp (nnn : Addr12) : Statement (.jp nnn) := fun _ => by simp [encode, decode]
theorem call (nnn : Addr12) : Statement (.call nnn) := fun _ => by simp [encode, decode]
theorem seImm (x : RegId) (nn : Byte) : Statement (.seImm x nn) := fun _ => by simp [encode, decode]
theorem sneImm (x : RegId) (nn : Byte) : Statement (.sneImm x nn) := fun _ => by simp [encode, decode]
theorem seReg (x y : RegId) : Statement (.seReg x y) := fun _ => by simp [encode, decode]
theorem ldImm (x : RegId) (nn : Byte) : Statement (.ldImm x nn) := fun _ => by simp [encode, decode]
theorem addImm (x : RegId) (nn : Byte) : Statement (.addImm x nn) := fun _ => by simp [encode, decode]
theorem ldReg (x y : RegId) : Statement (.ldReg x y) := fun _ => by simp [encode, decode, decode8]
theorem orReg (x y : RegId) : Statement (.orReg x y) := fun _ => by simp [encode, decode, decode8]
theorem andReg (x y : RegId) : Statement (.andReg x y) := fun _ => by simp [encode, decode, decode8]
theorem xorReg (x y : RegId) : Statement (.xorReg x y) := fun _ => by simp [encode, decode, decode8]
theorem addReg (x y : RegId) : Statement (.addReg x y) := fun _ => by simp [encode, decode, decode8]
theorem subReg (x y : RegId) : Statement (.subReg x y) := fun _ => by simp [encode, decode, decode8]
theorem shr (x : RegId) : Statement (.shr x) := fun _ => by simp [encode, decode, decode8]
theorem subnReg (x y : RegId) : Statement (.subnReg x y) := fun _ => by simp [encode, decode, decode8]
theorem shl (x : RegId) : Statement (.shl x) := fun _ => by simp [encode, decode, decode8]
theorem sneReg (x y : RegId) : Statement (.sneReg x y) := fun _ => by simp [encode, decode]
theorem ldI (nnn : Addr12) : Statement (.ldI nnn) := fun _ => by simp [encode, decode]
theorem jpV0 (nnn : Addr12) : Statement (.jpV0 nnn) := fun _ => by simp [encode, decode]
theorem rnd (x : RegId) (nn : Byte) : Statement (.rnd x nn) := fun _ => by simp [encode, decode]
theorem drw (x y : RegId) (n : Nibble) : Statement (.drw x y n) := fun _ => by simp [encode, decode]
theorem skp (x : RegId) : Statement (.skp x) := fun _ => by simp [encode, decode, decodeE]
theorem sknp (x : RegId) : Statement (.sknp x) := fun _ => by simp [encode, decode, decodeE]
theorem ldVxDT (x : RegId) : Statement (.ldVxDT x) := fun _ => by simp [encode, decode, decodeF]
theorem ldVxK (x : RegId) : Statement (.ldVxK x) := fun _ => by simp [encode, decode, decodeF]
theorem ldDTVx (x : RegId) : Statement (.ldDTVx x) := fun _ => by simp [encode, decode, decodeF]
theorem ldSTVx (x : RegId) : Statement (.ldSTVx x) := fun _ => by simp [encode, decode, decodeF]
theorem addI (x : RegId) : Statement (.addI x) := fun _ => by simp [encode, decode, decodeF]
theorem ldF (x : RegId) : Statement (.ldF x) := fun _ => by simp [encode, decode, decodeF]
theorem ldB (x : RegId) : Statement (.ldB x) := fun _ => by simp [encode, decode, decodeF]
theorem storeRegs (x : RegId) : Statement (.storeRegs x) := fun _ => by simp [encode, decode, decodeF]
theorem loadRegs (x : RegId) : Statement (.loadRegs x) := fun _ => by simp [encode, decode, decodeF]

/-- A word that R86 does not recognise matches no row, so decoding gives it back as unknown. -/
theorem unknown (ir : Word) : Statement (.unknown ir) := fun h => by
  have h : recognised ir = false := by simpa [Instr.wf] using h
  exact decode_of_not_recognised h

end Sys2Proof.Laws.EncodeDecode
end

