-- ==== Sys2Proof/Tests/Slice0.lean ====
section
/-! SUPPORT. Tests of the model. Expected results come from `95_test_vectors.md` (the vector is named in
front of each step test), the words of the decode tests from the patterns of `30_encoding.md` R85,
written out bit by bit. The machine is configured with a blank glyph table except where a test names the
default font. At the end: a state and operands that meet the hypotheses of each statement. -/

namespace Sys2Proof.Tests

open Sys2Proof.Machine

/-! ### WellFormed refuses an ill-formed term -/

theorem test_wf_refuses_recognised_word_as_unknown :
    (Instr.unknown 0x6000).wf = false ∧ (Instr.unknown 0x00E0).wf = false ∧
    (Instr.unknown 0x85FE).wf = false ∧ (Instr.unknown 0xE59E).wf = false ∧
    (Instr.unknown 0xF265).wf = false := by decide

theorem test_wf_accepts :
    (Instr.unknown 0x0000).wf = true ∧ (Instr.unknown 0x8AB8).wf = true ∧
    (Instr.unknown 0xFFFF).wf = true ∧ (Instr.drw 1 2 5).wf = true := by decide

/-! ### Decoding: `x = 10`, `y = 5`, `n = 9`, `nn = 0x6B`, `nnn = 0xC35` -/

theorem test_decode_display :
    decode 0b0000_0000_1110_0000 = .cls ∧ decode 0b1101_1010_0101_1001 = .drw 10 5 9 := by decide

theorem test_decode_control_flow :
    decode 0b0000_0000_1110_1110 = .ret ∧ decode 0b0001_1100_0011_0101 = .jp 0xC35 ∧
    decode 0b0010_1100_0011_0101 = .call 0xC35 ∧ decode 0b0011_1010_0110_1011 = .seImm 10 0x6B ∧
    decode 0b0100_1010_0110_1011 = .sneImm 10 0x6B ∧ decode 0b0101_1010_0101_0000 = .seReg 10 5 ∧
    decode 0b1001_1010_0101_0000 = .sneReg 10 5 ∧ decode 0b1011_1100_0011_0101 = .jpV0 0xC35 := by
  decide

theorem test_decode_alu :
    decode 0b0110_1010_0110_1011 = .ldImm 10 0x6B ∧ decode 0b0111_1010_0110_1011 = .addImm 10 0x6B ∧
    decode 0b1000_1010_0101_0000 = .ldReg 10 5 ∧ decode 0b1000_1010_0101_0001 = .orReg 10 5 ∧
    decode 0b1000_1010_0101_0010 = .andReg 10 5 ∧ decode 0b1000_1010_0101_0011 = .xorReg 10 5 ∧
    decode 0b1000_1010_0101_0100 = .addReg 10 5 ∧ decode 0b1000_1010_0101_0101 = .subReg 10 5 ∧
    decode 0b1000_1010_0101_0110 = .shr 10 ∧ decode 0b1000_1010_0101_0111 = .subnReg 10 5 ∧
    decode 0b1000_1010_0101_1110 = .shl 10 ∧ decode 0b1100_1010_0110_1011 = .rnd 10 0x6B := by decide

theorem test_decode_index_memory :
    decode 0b1010_1100_0011_0101 = .ldI 0xC35 ∧ decode 0b1111_1010_0001_1110 = .addI 10 ∧
    decode 0b1111_1010_0010_1001 = .ldF 10 ∧ decode 0b1111_1010_0011_0011 = .ldB 10 ∧
    decode 0b1111_1010_0101_0101 = .storeRegs 10 ∧ decode 0b1111_1010_0110_0101 = .loadRegs 10 := by
  decide

theorem test_decode_keys_timers :
    decode 0b1110_1010_1001_1110 = .skp 10 ∧ decode 0b1110_1010_1010_0001 = .sknp 10 ∧
    decode 0b1111_1010_0000_0111 = .ldVxDT 10 ∧ decode 0b1111_1010_0000_1010 = .ldVxK 10 ∧
    decode 0b1111_1010_0001_0101 = .ldDTVx 10 ∧ decode 0b1111_1010_0001_1000 = .ldSTVx 10 := by decide

/-- Vectors E4, E10, E15, E17, E18, and a reserved word next to each recognised F row it could fall into. -/
theorem test_decode_unknown :
    decode 0x01E0 = .unknown 0x01E0 ∧ decode 0x8AB8 = .unknown 0x8AB8 ∧
    decode 0xE59F = .unknown 0xE59F ∧ decode 0xF266 = .unknown 0xF266 ∧ decode 0xFFFF = .unknown 0xFFFF ∧
    decode 0x8AB9 = .unknown 0x8AB9 ∧ decode 0x8ABF = .unknown 0x8ABF ∧
    decode 0xF202 = .unknown 0xF202 ∧ decode 0xF285 = .unknown 0xF285 := by decide

theorem test_decode_table_word :
    decodeTableWord 16 0xD125 = some (.drw 1 2 5) ∧ decodeBytes [0xD1, 0x25, 0x77] = .ok (.drw 1 2 5, [0x77]) ∧
    decodeBytes [0xD1] = .error .truncated := by decide

/-! ### One step each -/

/-- The reset state of a machine whose configured glyph table is all zero: a test that does not name the
default font does not rest on it (`20_memory.md` R53). -/
def blank : State := State.resetWith (Vector.replicate 80 0)

/-- What one step from `s` with the word `w` at `PC` leaves in the parts `f` looks at. -/
def after {α : Type} (w : Nat) (s : State) (f : State → α) : Option α :=
  match step (s.withFetchWord 16 w) with
  | .next t => some (f t)
  | .fault _ => none
  | .refused _ => none

/-- Two registers set on the reset state. -/
def regs2 (x : RegId) (a : Byte) (y : RegId) (b : Byte) : State := (blank.setReg x a).setReg y b

/-- A state whose call stack holds `n` entries, each `w`. -/
def deep (n : Fin 17) (w : Word) : State := { blank with sp := n, stack := Vector.replicate 16 w }

/-- A sprite of two bytes at 0x300, `I` on it, drawn at the position in `V1`, `V2`. -/
def sprite (a b : Byte) (px py : Byte) : State :=
  ((regs2 1 px 2 py).setI 0x300).setMem (blank.mem.pokeList 0x300 [a, b])

/-- The pixels that are on in the first `n` columns of a row, as a number, column 0 in bit 0. -/
def rowBits (s : State) (r : Nat) : BitVec 64 := s.fb.getD r 0

/-- DS1. -/
theorem test_cls :
    after 0x00E0 { blank with fb := Vector.replicate 32 5 } (fun t => (t.fb, t.pc)) =
      some (Vector.replicate 32 0, 0x202) := by decide

/-- CT7. -/
theorem test_ret : after 0x00EE { deep 1 0x206 with pc := 0x212 } (fun t => (t.pc, t.sp)) =
    some (0x206, 0) := by decide

/-- CT8. -/
theorem test_ret_underflow : after 0x00EE { blank with dt := 5 } (fun t => (t.fault, t.pc, t.dt)) =
    some (.stackUnderflow, 0x200, 5) := by decide

/-- CT1. -/
theorem test_jp : after 0x120C blank (fun t => (t.pc, t.sp)) = some (0x20C, 0) := by decide

/-- CT5. -/
theorem test_call_last : after 0x2300 (deep 15 7) (fun t => (t.stack[15], t.stack[14], t.sp, t.pc)) =
    some (0x202, 7, 16, 0x300) := by decide

/-- CT6. -/
theorem test_call_overflow : after 0x2300 (deep 16 7) (fun t => (t.fault, t.sp, t.stack, t.pc)) =
    some (.stackOverflow, 16, Vector.replicate 16 7, 0x200) := by decide

/-- CT9, CT10. -/
theorem test_se_imm : after 0x3100 (blank.setReg 1 0) State.pc = some 0x204 ∧
    after 0x3100 (blank.setReg 1 4) State.pc = some 0x202 := by decide

/-- CT11, CT12. -/
theorem test_sne_imm : after 0x4A07 (blank.setReg 10 7) State.pc = some 0x202 ∧
    after 0x4A07 (blank.setReg 10 8) State.pc = some 0x204 := by decide

/-- CT13, CT14. -/
theorem test_se_reg : after 0x5120 (regs2 1 0x33 2 0x33) State.pc = some 0x204 ∧
    after 0x5120 (regs2 1 1 2 2) State.pc = some 0x202 := by decide

/-- CT16, CT17. -/
theorem test_sne_reg : after 0x9120 (regs2 1 1 2 2) State.pc = some 0x204 ∧
    after 0x9330 (blank.setReg 3 0x99) State.pc = some 0x202 := by decide

/-- CT20. -/
theorem test_skip_past_the_top : after 0x3100 { blank with pc := 0xFFE } State.pc = some 0x1002 := by
  decide

/-- CT19. -/
theorem test_jp_v0_not_masked : after 0xBFFF (blank.setReg 0 0xFF) State.pc = some 0x10FE := by decide

/-- A2. -/
theorem test_ld_imm : after 0x6F80 (blank.setReg 15 1) (fun t => t.reg 15) = some 0x80 := by decide

/-- A3. -/
theorem test_add_imm_no_flag : after 0x7102 (blank.setReg 1 0xFF) (fun t => (t.reg 1, t.reg 15)) =
    some (0x01, 0) := by decide

/-- A6. -/
theorem test_ld_reg : after 0x8120 (blank.setReg 2 0x7E) (fun t => (t.reg 1, t.reg 2)) =
    some (0x7E, 0x7E) := by decide

/-- A7. -/
theorem test_or_keeps_flag :
    after 0x8121 ((regs2 1 0xF0 2 0x0F).setReg 15 1) (fun t => (t.reg 1, t.reg 15)) = some (0xFF, 1) := by
  decide

/-- A8. -/
theorem test_and : after 0x8122 (regs2 1 0xF3 2 0x3C) (fun t => t.reg 1) = some 0x30 := by decide

/-- A9. -/
theorem test_xor : after 0x8123 (regs2 1 0xFF 2 0x0F) (fun t => t.reg 1) = some 0xF0 := by decide

/-- A11, A12. -/
theorem test_add_carry :
    after 0x8014 (regs2 0 0xC8 1 0x64) (fun t => (t.reg 0, t.reg 15)) = some (0x2C, 1) ∧
    after 0x8014 (regs2 0 0xC8 1 0x37) (fun t => (t.reg 0, t.reg 15)) = some (0xFF, 0) := by decide

/-- A17. -/
theorem test_add_into_vf : after 0x8F14 (regs2 15 0x01 1 0x02) (fun t => t.reg 15) = some 0 := by decide

/-- A20, A21. -/
theorem test_sub :
    after 0x8345 (regs2 3 0x05 4 0x0A) (fun t => (t.reg 3, t.reg 15)) = some (0xFB, 0) ∧
    after 0x8345 (regs2 3 0x07 4 0x07) (fun t => (t.reg 3, t.reg 15)) = some (0x00, 0) := by decide

/-- A24. -/
theorem test_sub_into_vf : after 0x8F05 (regs2 15 0x05 0 0x03) (fun t => t.reg 15) = some 1 := by decide

/-- A25. -/
theorem test_shr_ignores_y :
    after 0x8506 (regs2 5 0x05 0 0xAA) (fun t => (t.reg 5, t.reg 15, t.reg 0)) = some (0x02, 1, 0xAA) := by
  decide

/-- A29. -/
theorem test_shr_vf : after 0x8F06 (blank.setReg 15 2) (fun t => t.reg 15) = some 0 := by decide

/-- A30, A31. -/
theorem test_subn :
    after 0x8127 (regs2 1 0x03 2 0x0A) (fun t => (t.reg 1, t.reg 15)) = some (0x07, 1) ∧
    after 0x8127 (regs2 1 0x0A 2 0x03) (fun t => (t.reg 1, t.reg 15)) = some (0xF9, 0) := by decide

/-- A33, A34. -/
theorem test_shl :
    after 0x850E (blank.setReg 5 0x81) (fun t => (t.reg 5, t.reg 15)) = some (0x02, 1) ∧
    after 0x850E (regs2 5 0x7F 15 1) (fun t => (t.reg 5, t.reg 15)) = some (0xFE, 0) := by decide

/-- A37, on the meaning that takes the byte as an argument. -/
theorem test_rnd_mask : randomInto 0xB7 3 0x0F blank =
    .next ((blank.countDraw.setReg 3 0x07).setPC 0x202) := by rfl

/-- A38. -/
theorem test_rnd_zero_mask (b : Byte) :
    randomInto b 3 0x00 blank = .next ((blank.countDraw.setReg 3 0x00).setPC 0x202) := by
  have h : b &&& 0x00 = 0x00 := BitVec.and_zero
  rw [randomInto, h]
  rfl

/-- M1. -/
theorem test_ld_i : after 0xA300 blank State.i = some 0x300 := by decide

/-- M3, M4. -/
theorem test_add_i_wraps :
    after 0xF21E ((blank.setI 0xFFF).setReg 2 1) (fun t => (t.i, t.reg 15)) = some (0x000, 0) ∧
    after 0xF21E ((blank.setI 0xFF0).setReg 2 0xFF) State.i = some 0x0EF := by decide

/-- M5, M5b. -/
theorem test_ld_f : after 0xF029 (blank.setReg 0 0x0A) State.i = some 0x032 ∧
    after 0xF029 (blank.setReg 0 0xFF) State.i = some 0x4FB := by decide

/-- M9. -/
theorem test_ld_b :
    after 0xF033 ((blank.setI 0x300).setReg 0 0xC7) (fun t => t.mem.readBlock 0x300 4) =
      some (some [1, 9, 9, 0]) := by decide

/-- M11. -/
theorem test_ld_b_fault :
    after 0xF033 { (blank.setI 0xFFE).setReg 0 9 with dt := 5 }
      (fun t => (t.fault, t.pc, t.mem.readBlock 0xFFE 2, t.dt)) =
      some (.outOfBoundsMemory, 0x200, some [0, 0], 5) := by decide

/-- M12. -/
theorem test_store_regs :
    after 0xF255 (((regs2 0 1 1 2).setReg 2 3).setI 0x400) (fun t => (t.mem.readBlock 0x400 4, t.i)) =
      some (some [1, 2, 3, 0], 0x400) := by decide

/-- M14. -/
theorem test_store_regs_fault :
    after 0xF155 ((blank.setI 0xFFF).setReg 0 7) (fun t => (t.fault, t.mem.read? 0xFFF)) =
      some (.outOfBoundsMemory, some 0) := by decide

/-- M18. -/
theorem test_load_regs :
    after 0xF465 ((State.resetWith defaultGlyphs).setReg 5 0x99) (fun t => (List.range 6).map fun k => t.reg (BitVec.ofNat 4 k)) =
      some [0xF0, 0x90, 0x90, 0x90, 0xF0, 0x99] := by decide

/-- M19. -/
theorem test_load_regs_fault :
    after 0xF165 ((regs2 0 0x11 1 0x11).setI 0xFFF) (fun t => (t.fault, t.reg 0, t.reg 1)) =
      some (.outOfBoundsMemory, 0x11, 0x11) := by decide

/-- DS3: the row wraps in its own row. -/
theorem test_drw_wraps_columns :
    after 0xD121 (sprite 0xFF 0 63 0) (fun t => (rowBits t 0, rowBits t 1, t.reg 15)) =
      some (0x800000000000007F, 0, 0) := by decide

/-- DS4, and DS6 with its sprite at a pixel that is on. -/
theorem test_drw_wraps_rows_and_collides :
    after 0xD122 (sprite 0x80 0x80 0 31) (fun t => (rowBits t 31, rowBits t 0, t.reg 15)) = some (1, 1, 0) ∧
    after 0xD121 { sprite 0xC0 0 0 0 with fb := Vector.replicate 32 1 }
      (fun t => (rowBits t 0, rowBits t 1, t.reg 15)) = some (2, 1, 1) := by decide

/-- K1, K4. -/
theorem test_skp :
    after 0xE59E { blank.setReg 5 3 with keys := 0x0008 } State.pc = some 0x204 ∧
    after 0xE59E { blank.setReg 5 0x1A with keys := 0x0400 } State.pc = some 0x204 := by decide

/-- K3. -/
theorem test_sknp : after 0xE5A1 (blank.setReg 5 3) State.pc = some 0x204 := by decide

/-- K5, one cycle of it. -/
theorem test_wait_for_key :
    after 0xF50A { blank.setReg 5 0x77 with dt := 20 } (fun t => (t.pc, t.reg 5, t.dt)) =
      some (0x200, 0x77, 19) := by decide

/-- K7. -/
theorem test_key_lowest :
    after 0xF50A { blank with keys := 0x0408 } (fun t => (t.reg 5, t.pc)) = some (3, 0x202) := by
  decide

/-- T1. -/
theorem test_ld_vx_dt : after 0xF307 { blank with dt := 4 } (fun t => (t.reg 3, t.dt)) =
    some (4, 3) := by decide

/-- T3. -/
theorem test_ld_dt_vx : after 0xF015 { blank.setReg 0 5 with dt := 200 } State.dt = some 4 := by
  decide

/-- T5. -/
theorem test_ld_st_vx : after 0xF218 { blank.setReg 2 0x10 with dt := 7 } (fun t => (t.st, t.dt)) =
    some (0x0F, 6) := by decide

/-- T6. -/
theorem test_tone_ends : ({ blank with st := 1 } : State).toneOn = true ∧
    after 0x6000 { blank with st := 1 } State.toneOn = some false := by decide

/-- `40_cycle.md` R107, and the empty image of `95_test_vectors.md` L3. -/
theorem test_unknown :
    after 0x0000 { blank with dt := 2 } (fun t => (t.pc, t.unknownIr, t.unknownOpcode, t.dt, t.fault)) =
      some (0x202, some 0x0000, true, 1, .none) := by decide

/-- `40_cycle.md` R101: `PC = 0xFFF` has no second byte. -/
theorem test_fetch_fault : step { blank with pc := 0xFFF, st := 3 } =
    .next { blank with pc := 0xFFF, st := 3, fault := .outOfBoundsMemory } := by rfl

/-- `20_memory.md` R54 at its bound: 0xE00 bytes are loaded, one more is refused. -/
theorem test_load_program_bound :
    blank.loadProgram (List.replicate 0xE01 0) = .error .romTooLarge ∧
    (blank.loadProgram (List.replicate 0xE00 0)).isOk = true := by
  constructor
  · rw [State.loadProgram, if_pos (by rw [List.length_replicate]; decide)]
  · rw [State.loadProgram, if_neg (by rw [List.length_replicate]; decide)]
    rfl

/-- `60_exceptions.md` R180: the two bits of the output `fault`. -/
theorem test_fault_bits : FaultCode.bits .none = 0 ∧ FaultCode.bits .outOfBoundsMemory = 1 ∧
    FaultCode.bits .stackOverflow = 2 ∧ FaultCode.bits .stackUnderflow = 3 := by decide

/-- `60_exceptions.md` R193, R203: the latch takes what the input provider sets. -/
theorem test_set_keys : (blank.setKeys 0x0020).keys = 0x0020 := by decide

/-! ### Witnesses: the hypotheses of each statement are met, clause by clause, at boundary values -/

/-- `s` with the word `w` at `PC`. -/
def placed (w : Nat) (s : State) : State := s.withFetchWord 16 w

theorem reset_inv (g : GlyphTable) : Inv (State.resetWith g) :=
  ⟨Nat.zero_le _, by show 0x200 ≤ 0x10FE; decide, fun _ _ h => absurd h (Nat.not_lt_zero _), rfl⟩

/-- Each range of the statement at its ends. -/
theorem witness_ResetLeavesTheStatedValues :
    15 < 16 ∧ (63 < 64 ∧ 31 < 32) ∧ 0x4F < 0x50 ∧ (0x50 ≤ 0x50 ∧ 0xFFF ≤ 0xFFF) ∧
    (State.resetWith defaultGlyphs).mem.read? 0x4F = some 0x80 ∧ blank.mem.read? 0x4F = some 0 ∧
    blank.mem.read? 0x50 = some 0 ∧ blank.mem.read? 0xFFF = some 0 ∧ blank.mem.read? 0x1000 = none := by
  decide

theorem witness_GlyphsReadAsTheDefaultFont :
    15 < 16 ∧ (State.resetWith defaultGlyphs).mem.read? (5 * 15 + 4) = some 0x80 := by decide

theorem witness_LoaderWritesTheImageOrRefusesIt :
    blank.mem.wf = true ∧ (List.replicate 0xE00 (0 : Byte)).length ≤ 0xE00 ∧
    0xE00 < (List.replicate 0xE01 (0 : Byte)).length := by
  simp only [List.length_replicate]
  decide

theorem witness_HaltedCoreStaysHaltedUntilReset :
    (blank.latch .outOfBoundsMemory).fault ≠ .none ∧ (blank.latch .stackOverflow).fault ≠ .none ∧
    (blank.latch .stackUnderflow).fault ≠ .none := by decide

theorem witness_DecodeOfEncodeIsTheInstruction :
    (Instr.drw 15 15 15).wf = true ∧ (Instr.jp 0xFFF).wf = true ∧ (Instr.unknown 0x00E1).wf = true := by decide

theorem witness_UnknownExactlyWhenNotRecognised :
    decode 0x00E1 = .unknown 0x00E1 ∧ recognised 0x00E1 = false := by decide

theorem witness_FetchIsBigEndianAndFaultsPastTheTop :
    ({ blank with pc := 0xFFE } : State).pc.toNat ≤ 0xFFE ∧
    (0xFFE < ({ blank with pc := 0xFFF } : State).pc.toNat ∧
      ({ blank with pc := 0xFFF } : State).fault = .none) := by decide

/-- A completing handler, and one that raises a fatal condition. -/
theorem witness_StepRunsTheDecodedInstruction :
    (∃ t, (placed 0x6A2F blank).fault = .none ∧
      (placed 0x6A2F blank).mem.read? (placed 0x6A2F blank).pc.toNat = some 0x6A ∧
      (placed 0x6A2F blank).mem.read? ((placed 0x6A2F blank).pc.toNat + 1) = some 0x2F ∧
      decodeBytes (0x6A :: 0x2F :: []) = .ok (.ldImm 10 0x2F, []) ∧
      exec (.ldImm 10 0x2F) { placed 0x6A2F blank with unknownIr := none } = .next t ∧
      t.fault = .none) ∧
    (∃ t, (placed 0x00EE blank).fault = .none ∧
      (placed 0x00EE blank).mem.read? (placed 0x00EE blank).pc.toNat = some 0x00 ∧
      (placed 0x00EE blank).mem.read? ((placed 0x00EE blank).pc.toNat + 1) = some 0xEE ∧
      decodeBytes (0x00 :: 0xEE :: []) = .ok (.ret, []) ∧
      exec .ret { placed 0x00EE blank with unknownIr := none } = .next t ∧ t.fault ≠ .none) :=
  ⟨⟨_, rfl, rfl, rfl, rfl, rfl, rfl⟩, ⟨_, rfl, rfl, rfl, rfl, rfl, by decide⟩⟩

/-- No fault at each highest base, and each of the five causes one past it. -/
theorem witness_OutOfBoundsMemoryHasExactlyFiveCauses :
    (∃ t, step (placed 0xD121 (blank.setI 0xFFF)) = .next t ∧ t.fault = .none) ∧
    (∃ t, step { blank with pc := 0xFFF } = .next t ∧ t.fault = .outOfBoundsMemory) ∧
    (∃ t, step (placed 0xD122 (blank.setI 0xFFF)) = .next t ∧ t.fault = .outOfBoundsMemory ∧
      Executes (placed 0xD122 (blank.setI 0xFFF)) (.drw 1 2 2)) ∧
    (∃ t, step (placed 0xF033 (blank.setI 0xFFE)) = .next t ∧ t.fault = .outOfBoundsMemory ∧
      Executes (placed 0xF033 (blank.setI 0xFFE)) (.ldB 0)) ∧
    (∃ t, step (placed 0xF155 (blank.setI 0xFFF)) = .next t ∧ t.fault = .outOfBoundsMemory ∧
      Executes (placed 0xF155 (blank.setI 0xFFF)) (.storeRegs 1)) ∧
    (∃ t, step (placed 0xFF65 (blank.setI 0xFF1)) = .next t ∧ t.fault = .outOfBoundsMemory ∧
      Executes (placed 0xFF65 (blank.setI 0xFF1)) (.loadRegs 15)) :=
  ⟨⟨_, rfl, rfl⟩, ⟨_, rfl, rfl⟩, ⟨_, rfl, rfl, _, rfl, rfl⟩, ⟨_, rfl, rfl, _, rfl, rfl⟩,
    ⟨_, rfl, rfl, _, rfl, rfl⟩, ⟨_, rfl, rfl, _, rfl, rfl⟩⟩

theorem witness_StackFaultsHaveExactlyOneCauseEach :
    (∃ t, step (placed 0x2300 (deep 16 7)) = .next t ∧ t.fault = .stackOverflow ∧
      Executes (placed 0x2300 (deep 16 7)) (.call 0x300)) ∧
    (∃ t, step (placed 0x2300 (deep 15 7)) = .next t ∧ t.fault = .none) ∧
    (∃ t, step (placed 0x00EE blank) = .next t ∧ t.fault = .stackUnderflow ∧
      Executes (placed 0x00EE blank) .ret) ∧
    (∃ t, step (placed 0x00EE (deep 1 7)) = .next t ∧ t.fault = .none) :=
  ⟨⟨_, rfl, rfl, _, rfl, rfl⟩, ⟨_, rfl, rfl⟩, ⟨_, rfl, rfl, _, rfl, rfl⟩, ⟨_, rfl, rfl⟩⟩

theorem witness_TimersTickOncePerCompletedCycle :
    (∃ t, step (placed 0xF015 blank) = .next t ∧ t.fault = .none ∧
      Executes (placed 0xF015 blank) (.ldDTVx 0)) ∧
    (∃ t, step (placed 0xF018 blank) = .next t ∧ t.fault = .none ∧
      Executes (placed 0xF018 blank) (.ldSTVx 0)) ∧
    (∃ t, step (placed 0xF007 blank) = .next t ∧ t.fault = .none ∧
      Executes (placed 0xF007 blank) (.ldVxDT 0)) ∧
    (∃ t, step (placed 0x00EE blank) = .next t ∧ t.fault ≠ .none) :=
  ⟨⟨_, rfl, rfl, _, rfl, rfl⟩, ⟨_, rfl, rfl, _, rfl, rfl⟩, ⟨_, rfl, rfl, _, rfl, rfl⟩,
    ⟨_, rfl, by decide⟩⟩

/-- Two cycles of a self-jump. -/
theorem witness_DelayTimerCountsCycles :
    ∃ t, SafeRun 2 (placed 0x1200 { blank with dt := 1 }) t ∧
      ∀ m u, m < 2 → Host.Core.run core m (placed 0x1200 { blank with dt := 1 }) = .next u →
        ∀ x, ¬ Executes u (.ldDTVx x) := by
  refine ⟨_, ⟨rfl, rfl⟩, fun m u hm hu x => ?_⟩
  rcases m with _ | _ | m
  · obtain rfl := Host.Outcome.next.inj hu
    rintro ⟨_, h, hd⟩
    obtain rfl := Option.some.inj h
    cases hd
  · obtain rfl := Host.Outcome.next.inj hu
    rintro ⟨_, h, hd⟩
    obtain rfl := Option.some.inj h
    cases hd
  · omega

theorem witness_DiagnosticReportsTheUnknownWord :
    (∃ t, (placed 0x8AB8 blank).fault = .none ∧ (placed 0x8AB8 blank).fetch = some 0x8AB8 ∧
      step (placed 0x8AB8 blank) = .next t ∧ t.fault = .none ∧ recognised 0x8AB8 = false) ∧
    (∃ t, (placed 0x8AB4 blank).fault = .none ∧ (placed 0x8AB4 blank).fetch = some 0x8AB4 ∧
      step (placed 0x8AB4 blank) = .next t ∧ t.fault = .none ∧ recognised 0x8AB4 = true) :=
  ⟨⟨_, rfl, rfl, rfl, rfl, rfl⟩, ⟨_, rfl, rfl, rfl, rfl, rfl⟩⟩

theorem witness_LatchIsWrittenByTheEnvironmentOnly :
    (∃ t, exec (.ldVxK 1) { blank with keys := 4 } = .next t) ∧
    (∃ t, step (placed 0x1200 { blank with keyInputs := [8] }) = .next t ∧ t.fault = .none) ∧
    (∃ t, step (placed 0x1200 blank) = .next t ∧ t.fault = .none) :=
  ⟨⟨_, rfl⟩, ⟨_, rfl, rfl⟩, ⟨_, rfl, rfl⟩⟩

theorem witness_RetPopsOrUnderflows :
    0 < (deep 1 7).sp.val ∧ 0 < (deep 16 7).sp.val ∧ blank.sp.val = 0 := by decide

theorem witness_CallPushesOrOverflows :
    (deep 15 7).sp.val < 16 ∧ blank.sp.val < 16 ∧ (deep 16 7).sp.val = 16 := by decide

theorem witness_RetAfterCallResumesAfterTheCall :
    ∃ t, (deep 15 7).sp.val < 16 ∧ exec (.call 0x300) (deep 15 7) = .next t := ⟨_, by decide, rfl⟩

theorem witness_AssignAndLogicLeaveTheFlagAlone : 7 < 8 := by decide

/-- The carry on both sides of 255, with `x` not the flag register. -/
theorem witness_AddWritesSumThenCarry :
    (3 : RegId) ≠ VF ∧ ¬ 255 < ((regs2 3 0xFF 4 0).reg 3).toNat + ((regs2 3 0xFF 4 0).reg 4).toNat ∧
    255 < ((regs2 3 0xFF 4 1).reg 3).toNat + ((regs2 3 0xFF 4 1).reg 4).toNat := by decide

/-- Equal operands and a difference of one, with `x` not the flag register. -/
theorem witness_SubtractionsWriteDifferenceThenStrictFlag :
    (3 : RegId) ≠ VF ∧ ¬ ((regs2 3 7 4 7).reg 4).toNat < ((regs2 3 7 4 7).reg 3).toNat ∧
    ((regs2 3 8 4 7).reg 4).toNat < ((regs2 3 8 4 7).reg 3).toNat := by decide

theorem witness_ShiftsMoveTheBoundaryBitIntoVF : (14 : RegId) ≠ VF := by decide

theorem witness_RandomByteIsMasked : 7 < 8 := by decide

/-- One that overwrites the flag, a `DRW` on each side of the bound, one with `x ≠ VF`, one of the rest. -/
theorem witness_ExactlySixInstructionsOverwriteTheFlag :
    (∃ t, exec (.subReg 3 4) (regs2 3 7 4 7) = .next t) ∧
    (∃ t, exec (.drw 1 2 1) (blank.setI 0xFFF) = .next t ∧
      (blank.setI 0xFFF).i.toNat + (1 : Nibble).toNat - 1 ≤ 0xFFF) ∧
    (∃ t, exec (.drw 1 2 2) (blank.setI 0xFFF) = .next t ∧
      ¬ ((2 : Nibble).toNat = 0 ∨ (blank.setI 0xFFF).i.toNat + (2 : Nibble).toNat - 1 ≤ 0xFFF)) ∧
    (∃ t, exec (.drw 1 2 0) (blank.setI 0xFFF) = .next t ∧ (0 : Nibble).toNat = 0) ∧
    (∃ t, exec (.orReg 14 15) blank = .next t ∧ (14 : RegId) ≠ VF) ∧
    (∃ t, exec .cls blank = .next t) :=
  ⟨⟨_, rfl⟩, ⟨_, rfl, by decide⟩, ⟨_, rfl, by decide⟩, ⟨_, rfl, rfl⟩, ⟨_, rfl, by decide⟩, ⟨_, rfl⟩⟩

theorem witness_BcdStoresThreeDigits :
    (blank.setI 0xFFD).mem.wf = true ∧ (blank.setI 0xFFD).blockBase + 2 ≤ 0xFFF ∧
    (blank.setI 0xFFE).mem.wf = true ∧ 0xFFF < (blank.setI 0xFFE).blockBase + 2 := by decide

theorem witness_RegisterDumpStoresTheBlock :
    (blank.setI 0xFF0).mem.wf = true ∧
    (blank.setI 0xFF0).blockBase + (15 : RegId).toNat ≤ 0xFFF ∧
    0xFFF < (blank.setI 0xFF1).blockBase + (15 : RegId).toNat := by decide

theorem witness_RegisterLoadReadsTheBlock :
    (blank.setI 0xFFF).blockBase + (0 : RegId).toNat ≤ 0xFFF ∧
    0xFFF < (blank.setI 0xFFF).blockBase + (1 : RegId).toNat := by decide

theorem witness_LoadAfterDumpRestoresTheRegisters :
    (blank.setI 0xFF0).mem.wf = true ∧
    (blank.setI 0xFF0).blockBase + (15 : RegId).toNat ≤ 0xFFF := by decide

/-- Cycle 4 of program P5: the store puts 62 77 where the next fetch reads. -/
theorem witness_StoresAreSeenByTheNextFetch :
    ∃ t, (placed 0xF155 ((regs2 0 0x62 1 0x77).setI 0x202)).mem.wf = true ∧
      (placed 0xF155 ((regs2 0 0x62 1 0x77).setI 0x202)).fault = .none ∧
      Executes (placed 0xF155 ((regs2 0 0x62 1 0x77).setI 0x202)) (.storeRegs 1) ∧
      step (placed 0xF155 ((regs2 0 0x62 1 0x77).setI 0x202)) = .next t ∧ t.fault = .none ∧
      (1 : RegId).toNat = (0 : RegId).toNat + 1 ∧ (1 : RegId).toNat ≤ (1 : RegId).toNat :=
  ⟨_, rfl, rfl, ⟨_, rfl, rfl⟩, rfl, rfl, rfl, Nat.le_refl _⟩

theorem witness_CanonicalMemoriesThatReadAlikeAreEqual :
    ({ blank.mem with cells := [(0x000, 0x11), (0x200, 0x60), (0xFFF, 1)] } : Memory).wf = true ∧
    ({ blank.mem with cells := [(0x000, 0x00)] } : Memory).wf = false ∧
    ({ blank.mem with cells := [(0x1000, 1)] } : Memory).wf = false ∧
    (∀ a, ({ blank.mem with cells := [(0x200, 0x60)] } : Memory).read? a = (blank.mem.poke 0x200 0x60).read? a) :=
  ⟨by decide, by decide, by decide, fun _ => rfl⟩

theorem witness_ClearTurnsEveryPixelOff :
    63 < 64 ∧ 31 < 32 ∧ ({ blank with fb := Vector.replicate 32 1 } : State).pixel 0 31 = true := by
  decide

/-- In range by `n = 0` and at the last byte; out of range by one; a pixel covered while on, and while off. -/
theorem witness_DrawXorsTheSpriteAndReportsCollision :
    (0 : Nibble).toNat = 0 ∧ (blank.setI 0xFFF).blockBase + (1 : Nibble).toNat - 1 ≤ 0xFFF ∧
    (0 < (2 : Nibble).toNat ∧ 0xFFF < (blank.setI 0xFFF).blockBase + (2 : Nibble).toNat - 1) ∧
    (∃ c r, c < 64 ∧ r < 32 ∧
      SpriteCovers { sprite 0x80 0 0 0 with fb := Vector.replicate 32 1 } 1 2 1 c r ∧
      ({ sprite 0x80 0 0 0 with fb := Vector.replicate 32 1 } : State).pixel c r = true) ∧
    (∃ c r, c < 64 ∧ r < 32 ∧ SpriteCovers (sprite 0x01 0 63 31) 1 2 1 c r ∧
      (sprite 0x01 0 63 31).pixel c r = false) :=
  ⟨by decide, by decide, by decide,
    ⟨0, 0, by decide, by decide, ⟨0, 0, 0x80, by decide, by decide, by decide, by decide, rfl, rfl⟩, by decide⟩,
    ⟨6, 31, by decide, by decide, ⟨0, 7, 0x01, by decide, by decide, by decide, by decide, rfl, rfl⟩, by decide⟩⟩

theorem witness_DrawingTwiceRestoresTheFramebuffer :
    ∃ t, (sprite 0x80 0 63 31).blockBase + (1 : Nibble).toNat - 1 ≤ 0xFFF ∧
      exec (.drw 1 2 1) (sprite 0x80 0 63 31) = .next t ∧ t.reg 1 = (sprite 0x80 0 63 31).reg 1 ∧
      t.reg 2 = (sprite 0x80 0 63 31).reg 2 ∧
      ∃ c r, c < 64 ∧ r < 32 ∧ SpriteCovers (sprite 0x80 0 63 31) 1 2 (1 : Nibble).toNat c r ∧
        (sprite 0x80 0 63 31).pixel c r = false :=
  ⟨_, by decide, rfl, by decide, by decide, 63, 31, by decide, by decide,
    ⟨0, 0, 0x80, by decide, by decide, by decide, by decide, rfl, rfl⟩, by decide⟩

theorem witness_DisplayOutputIsRowMajor :
    63 < 64 ∧ 31 < 32 ∧ ({ blank with fb := Vector.replicate 32 2 } : State).fbBit 65 = true ∧
    ({ blank with fb := Vector.replicate 32 2 } : State).fbBit 64 = false := by decide

theorem witness_WaitForKeyTakesTheLowestKey :
    blank.keys = 0 ∧ ({ blank with keys := 0x8000 } : State).keys ≠ 0 := by decide

theorem witness_WaitingForAKeyOnlyTicksTheTimers :
    (placed 0xF50A blank).fault = .none ∧ Executes (placed 0xF50A blank) (.ldVxK 5) ∧
    ∀ q ∈ (placed 0xF50A blank).keys :: (placed 0xF50A blank).keyInputs, q = 0 :=
  ⟨rfl, ⟨_, rfl, rfl⟩, fun _ hq => List.mem_singleton.1 hq⟩

theorem witness_UnknownWordIsANoOpWithADiagnostic :
    (placed 0xF266 blank).fault = .none ∧ (placed 0xF266 blank).fetch = some 0xF266 ∧
    recognised 0xF266 = false := ⟨rfl, rfl, rfl⟩

/-- Each part is changed by one of its writers. -/
theorem witness_EachPartHasOnlyItsWriters :
    (∃ t, exec (.ldI 0x300) blank = .next t ∧ t.i ≠ blank.i) ∧
    (∃ t, exec (.call 0x300) blank = .next t ∧ ¬ SameStack blank t) ∧
    (∃ t, exec (.ldDTVx 1) (blank.setReg 1 1) = .next t ∧ t.dt ≠ (blank.setReg 1 1).dt) ∧
    (∃ t, exec (.ldSTVx 1) (blank.setReg 1 1) = .next t ∧ t.st ≠ (blank.setReg 1 1).st) ∧
    (∃ t, exec (.storeRegs 1) (blank.setReg 0 1) = .next t ∧ ¬ SameMemory (blank.setReg 0 1) t) ∧
    (∃ t, exec (.drw 1 2 1) (sprite 0x80 0 0 0) = .next t ∧ ¬ SameDisplay (sprite 0x80 0 0 0) t) ∧
    (∃ t, exec (.unknown 0xFFFF) blank = .next t ∧ t.unknownIr ≠ blank.unknownIr) ∧
    (∃ t, exec (.rnd 1 0xFF) blank = .next t ∧ t.rndDraws ≠ blank.rndDraws) ∧
    (∃ t, exec (.jp 0) blank = .next t ∧ t.pc ≠ blank.pc + 2 ∧ blank.fault = .none ∧
      t.fault = .none) :=
  ⟨⟨_, rfl, by decide⟩, ⟨_, rfl, by simp only [SameStack]; decide⟩, ⟨_, rfl, by decide⟩,
    ⟨_, rfl, by decide⟩, ⟨_, rfl, fun h => absurd (h 0) (by decide)⟩,
    ⟨_, rfl, fun h => absurd (h 0 0 (by decide) (by decide)) (by decide)⟩, ⟨_, rfl, by decide⟩,
    ⟨_, rfl, by decide⟩, ⟨_, rfl, by decide, rfl, rfl⟩⟩

theorem witness_PlacedWordIsTheNextInstruction :
    blank.mem.wf = true ∧ decodeTableWord 16 0xD125 = some (.drw 1 2 5) ∧
    blank.fault = .none ∧ blank.pc.toNat ≤ 0xFFE := by decide

theorem witness_LaunchStatesMeetTheInvariant :
    ∃ t, launch (Vector.replicate 80 0xFF) [0x22, 0x00] = .ok t := ⟨_, rfl⟩

/-- The highest `PC` that can fetch, the highest depth that can push, the highest live entries. -/
def brink : State := placed 0x2300 { deep 15 0x1000 with pc := 0xFFE }

theorem brink_inv : Inv brink where
  index_masked := by decide
  pc_bounded := by decide
  live_entries k h _ := by
    have hs : brink.stack = Vector.replicate 16 0x1000 := rfl
    simp [hs]
  memory_canonical := by decide

theorem witness_StepKeepsInvariant :
    (∃ t, Inv State.reset ∧ step State.reset = .next t) ∧
    (∃ t, Inv brink ∧ step brink = .next t ∧ t.stack[15] = 0x1000) :=
  ⟨⟨_, reset_inv _, rfl⟩, ⟨_, brink_inv, rfl, by decide⟩⟩

/-- Two states that differ in a dead entry, and a `RET` that reads the live one below it. -/
theorem witness_DeadStackEntriesAreUnobservable :
    ∃ t t', SameButDeadStack (placed 0x00EE (deep 1 0x206))
        { placed 0x00EE (deep 1 0x206) with stack := (Vector.replicate 16 0x206).set 1 9 } ∧
      step (placed 0x00EE (deep 1 0x206)) = .next t ∧
      step { placed 0x00EE (deep 1 0x206) with stack := (Vector.replicate 16 0x206).set 1 9 } = .next t' :=
  ⟨_, _, ⟨rfl, by decide⟩, rfl, rfl⟩

/-- Two tables, a program that overwrote a glyph, and a reset after it. -/
theorem witness_GlyphTableIsConfiguration :
    (∃ t, exec (.storeRegs 1) (blank.setReg 0 1) = .next t ∧ t.mem.read? 0 = some 1 ∧
      t.assertReset.mem.read? 0 = some 0) ∧
    (∃ t, step (placed 0x1200 blank) = .next t) ∧ (∃ t, blank.loadProgram [0x12] = .ok t) ∧
    79 < 80 ∧ (State.resetWith (Vector.replicate 80 0xAB)).mem.read? 79 = some 0xAB :=
  ⟨⟨_, rfl, by decide, by decide⟩, ⟨_, rfl⟩, ⟨_, rfl⟩, by decide, by decide⟩

/-- A machine configured with a table whose first byte is 7, and one with a blank table that stored 7 there:
memory reads alike. -/
theorem witness_TableIsSeenThroughMemoryOnly :
    ∃ t t', SameButConfig { blank with mem := { glyphs := (Vector.replicate 80 0).set 0 7, cells := [] } }
        { blank with mem := blank.mem.poke 0 7 } ∧
      step { blank with mem := { glyphs := (Vector.replicate 80 0).set 0 7, cells := [] } } = .next t ∧
      step { blank with mem := blank.mem.poke 0 7 } = .next t' := by
  refine ⟨_, _, ⟨rfl, fun a => ?_, rfl, rfl⟩, rfl, rfl⟩
  refine Memory.read?_congr fun _ => ?_
  show peekCells (Vector.replicate 80 0) [(0, 7)] a = ((Vector.replicate 80 (0 : Byte)).set 0 7).getD a 0
  by_cases h0 : a = 0
  · subst h0
    rfl
  · simp [peekCells, unlisted, h0, Vector.getD, Ne.symm h0]

end Sys2Proof.Tests
end

section
/-! PROOFS. The statements of `10_state.md`: the state after reset (R32) and the writers of `VF` (R22). -/

namespace Sys2Proof.Machine

/-! ### What reads of the reset state give (R32) -/

@[simp] theorem State.resetWith_reg (g : GlyphTable) (r : RegId) : (State.resetWith g).reg r = 0 := by
  simp [State.reg]

@[simp] theorem State.resetWith_pixel (g : GlyphTable) (c r : Nat) :
    (State.resetWith g).pixel c r = false := by
  by_cases hr : r < 32 <;> simp [State.pixel, pixelOf, Vector.getD, hr]

theorem State.resetWith_read?_glyph (g : GlyphTable) {a : Nat} (h : a < 0x50) :
    (State.resetWith g).mem.read? a = some g[a] := by
  rw [Memory.read?_of_le (by omega), State.resetWith_mem, Memory.peek_reset]
  simp [Vector.getD, h]

theorem State.resetWith_read?_above_glyphs (g : GlyphTable) {a : Nat} (h : 0x50 ≤ a) (h' : a ≤ 0xFFF) :
    (State.resetWith g).mem.read? a = some 0 := by
  rw [Memory.read?_of_le h', State.resetWith_mem, Memory.peek_reset]
  simp [Vector.getD, Nat.not_lt.2 h]

/-- Settles O1: each part of R32 is one read of `State.resetWith`. -/
theorem resetLeavesTheStatedValues : Obligations.ResetLeavesTheStatedValues := by
  refine ⟨?_, rfl⟩
  rintro g s rfl
  exact ⟨State.resetWith_reg g, rfl, rfl, rfl, fun k h => by simp, rfl, rfl,
    fun c r _ _ => State.resetWith_pixel g c r, fun k _ => by simp, rfl,
    fun _ h => State.resetWith_read?_glyph g h, fun _ h h' => State.resetWith_read?_above_glyphs g h h'⟩

/-! ### The values `VF` takes (R22) -/

theorem flagByte_eq_zero_or_one (c : Bool) : flagByte c = 0 ∨ flagByte c = 1 := by
  cases c <;> decide

theorem flagByte_eq_one {c : Bool} : flagByte c = 1 ↔ c = true := by
  cases c <;> decide

@[simp] theorem flagByte_decide (p : Prop) [Decidable p] : flagByte (decide p) = if p then 1 else 0 := by
  simp [flagByte]

/-- The five flag-writing operations of `42_alu.md` leave the flag in `VF`, also when `x = 15` (R130). -/
theorem State.reg_VF_setResultFlag (s : State) (x : RegId) (res : Byte) (flag : Bool) :
    (s.setResultFlag x res flag).reg VF = flagByte flag :=
  State.reg_setReg_same _ _ _

/-- A load of `V[0]` to `V[x]` leaves the registers above `x` (R157). -/
theorem State.reg_setRegs_of_length_le (s : State) {bs : List Byte} {r : RegId} (h : bs.length ≤ r.toNat) :
    (s.setRegs bs).reg r = s.reg r := by
  rw [State.reg_setRegs, List.getD_eq_default _ _ h]

/-- Every register but `VF` is below it. -/
theorem toNat_lt_VF {x : RegId} (hx : x ≠ VF) : x.toNat < VF.toNat := by
  have hlt : x.toNat < 16 := x.isLt
  have hne : x.toNat ≠ VF.toNat := fun h => hx (BitVec.eq_of_toNat_eq h)
  have hVF : VF.toNat = 15 := rfl
  omega

/-- The collision flag told by the pixels alone (R164): both sides say that some position of the sprite was
on, as the draw toggles each of its positions once. -/
theorem drawRows_hit_iff (ox oy : Nat) {bs : List Byte} (h : bs.length ≤ 32) (f : Vector (BitVec 64) 32) :
    (drawRows ox oy 0 bs ⟨f, false⟩).hit = true ↔
      ∃ c r, c < 64 ∧ r < 32 ∧ pixelOf f c r = true ∧
        pixelOf (drawRows ox oy 0 bs ⟨f, false⟩).fb c r = false := by
  obtain ⟨hpix, hhit⟩ := drawRows_spec ox oy h ⟨f, false⟩
  rw [hhit, Bool.false_or, List.any_eq_true]
  constructor
  · rintro ⟨⟨c, r⟩, hp, hon⟩
    obtain ⟨hc, hr⟩ := spritePositions_in_grid hp
    exact ⟨c, r, hc, hr, hon, by simp [hpix c r hr, hon, hp]⟩
  · rintro ⟨c, r, -, hr, hon, hoff⟩
    exact ⟨(c, r), by simpa [hpix c r hr, hon] using hoff, hon⟩

/-- `VF` after `DRW` (R164, R166): the collision when the sprite is in range, else what it was. -/
theorem execDrw_flag {x y : RegId} {n : Nibble} {s t : State} (h : execDrw x y n s = .next t) :
    if n.toNat = 0 ∨ s.i.toNat + n.toNat - 1 ≤ 0xFFF then
      (t.reg VF = 0 ∨ t.reg VF = 1) ∧
      (t.reg VF = 1 ↔ ∃ c r, c < 64 ∧ r < 32 ∧ s.pixel c r = true ∧ t.pixel c r = false)
    else t.reg VF = s.reg VF := by
  have hbase : s.blockBase = s.i.toNat := rfl
  obtain ⟨hn, hout, rfl⟩ | ⟨hin, cv, hcv, rfl⟩ := execDrw_cases h
  · rw [if_neg (by omega)]
    rfl
  · rw [if_pos (by omega)]
    have hlen : ((List.range n.toNat).map fun k => s.mem.peek (s.blockBase + k)).length ≤ 32 := by
      have : n.toNat < 16 := n.isLt
      simp only [List.length_map, List.length_range]
      omega
    have hflag : ((s.setFB cv.fb).setReg VF (flagByte cv.hit)).advance.reg VF = flagByte cv.hit :=
      State.reg_setReg_same _ _ _
    rw [hflag]
    refine ⟨flagByte_eq_zero_or_one _, flagByte_eq_one.trans ?_⟩
    subst hcv
    exact drawRows_hit_iff _ _ hlen s.fb

/-- Settles O31, instruction by instruction: the five arithmetic flags, `DRW`, the plain destinations,
the rest. -/
theorem exactlySixInstructionsOverwriteTheFlag : Obligations.ExactlySixInstructionsOverwriteTheFlag := by
  refine ⟨State.resetWith_reg _ VF, fun i s t h => ?_⟩
  cases i with
  | addReg x y | subReg x y | subnReg x y =>
    obtain rfl := Host.Outcome.next.inj h
    exact (State.reg_VF_setResultFlag ..).trans (flagByte_decide _)
  | shr x | shl x =>
    obtain rfl := Host.Outcome.next.inj h
    exact State.reg_VF_setResultFlag ..
  | drw x y n => exact execDrw_flag h
  | ldImm x | addImm x | ldReg x | orReg x | andReg x | xorReg x | rnd x | ldVxDT x =>
    obtain rfl := Host.Outcome.next.inj h
    exact fun hx => State.reg_setReg_other _ _ hx.symm
  | ldVxK x =>
    obtain ⟨-, rfl⟩ | ⟨k, -, rfl⟩ := execLdVxK_cases h
    · exact fun _ => rfl
    · exact fun hx => State.reg_setReg_other _ _ hx.symm
  | loadRegs x =>
    obtain ⟨-, rfl⟩ | ⟨-, rfl⟩ := execLoadRegs_cases h
    · exact fun _ => rfl
    · exact fun hx => State.reg_setRegs_of_length_le s (by simpa using toNat_lt_VF hx)
  | ret =>
    obtain ⟨-, rfl⟩ | ⟨_, _, rfl⟩ := execRet_cases h <;> rfl
  | call nnn =>
    obtain ⟨-, rfl⟩ | ⟨_, rfl⟩ := execCall_cases h <;> rfl
  | ldB x =>
    obtain ⟨-, rfl⟩ | ⟨-, rfl⟩ := storeBlock_cases (by simp [bcdDigits]) h <;> rfl
  | storeRegs x =>
    obtain ⟨-, rfl⟩ | ⟨-, rfl⟩ := storeBlock_cases (by simp) h <;> rfl
  | cls | jp | seImm | sneImm | seReg | sneReg | ldI | jpV0 | skp | sknp | ldDTVx | ldSTVx | addI | ldF
  | unknown =>
    obtain rfl := Host.Outcome.next.inj h
    rfl

end Sys2Proof.Machine
end

section
/-! PROOFS. The statements of `20_memory.md`: the default font (R53) and the loader (R54, R67, R184). -/

namespace Sys2Proof.Machine

/-! ### The loader (R54) -/

/-- An image that fits is written from `PROG_BASE` on, and nothing but memory is touched. -/
theorem State.loadProgram_of_le (s : State) {image : List Byte} (h : image.length ≤ 0xE00) :
    s.loadProgram image = .ok (s.setMem (s.mem.pokeList 0x200 image)) :=
  if_neg (by show ¬ 0x200 + image.length > 0x1000; omega)

/-- `RomTooLarge` (R184). -/
theorem State.loadProgram_of_lt (s : State) {image : List Byte} (h : 0xE00 < image.length) :
    s.loadProgram image = .error .romTooLarge :=
  if_pos (by show 0x200 + image.length > 0x1000; omega)

/-- The frame of a block write: the addresses outside the block read as before. -/
theorem SameMemoryBut.of_pokeList {s : State} {a : Nat} {bs : List Byte} (hw : s.mem.wf = true)
    (h : a + bs.length ≤ 0x1000) : SameMemoryBut a bs.length s (s.setMem (s.mem.pokeList a bs)) :=
  fun _ hb => Memory.read?_pokeList_outside hw h hb

/-- Settles O3: an image that fits is a block write inside memory, a longer one is refused. -/
theorem loaderWritesTheImageOrRefusesIt : Obligations.LoaderWritesTheImageOrRefusesIt := by
  refine fun s image hw => ⟨fun hlen => ?_, s.loadProgram_of_lt⟩
  have hfit : 0x200 + image.length ≤ 0x1000 := by omega
  exact ⟨_, s.loadProgram_of_le hlen, fun _ hk => Memory.read?_pokeList_inside hw hfit hk,
    SameMemoryBut.of_pokeList hw hfit, rfl⟩

/-! ### The glyphs (R52, R53) -/

/-- The five bytes of digit `d` in a glyph table (R52). -/
def glyphRows (g : GlyphTable) (d : Nat) : List Byte := (List.range 5).map fun k => g.getD (5 * d + k) 0

/-- After reset memory shows the glyph of every digit as the configured table has it. -/
theorem State.resetWith_read?_glyphRows (g : GlyphTable) {d : Nat} (hd : d < 16) :
    (List.range 5).map (fun k => (State.resetWith g).mem.read? (5 * d + k)) = (glyphRows g d).map some := by
  simp only [glyphRows, List.map_map]
  refine List.map_congr_left fun k hk => ?_
  have ha : 5 * d + k < 0x50 := by have := List.mem_range.1 hk; omega
  exact (State.resetWith_read?_glyph g ha).trans (by simp [Vector.getD, ha])

/-- Settles O2: memory after reset shows the table, and the default table is R53's, digit by digit. -/
theorem glyphsReadAsTheDefaultFont : Obligations.GlyphsReadAsTheDefaultFont := by
  intro d h
  rw [State.resetWith_read?_glyphRows _ h]
  refine congrArg (List.map some) ?_
  revert d
  decide

end Sys2Proof.Machine
end

section
/-! PROOFS. The statements of `30_encoding.md`: the unknown words (R86, R89, R92) and the ignored bits (R87). -/

namespace Sys2Proof

/-! ### Unknown words (R86, R89) -/

theorem decode0_eq_unknown {ir u : Word} (hop : (opField ir).toNat = 0x0) (h : decode0 ir = .unknown u) :
    u = ir ∧ recognised ir = false := by
  have hop : (ir.extractLsb' 12 4).toNat = 0x0 := hop
  unfold decode0 at h
  split_ifs at h with hcls hret
  refine ⟨(Instr.unknown.inj h).symm, ?_⟩
  simp only [recognised, hop, Bool.or_eq_false_iff, beq_eq_false_iff_ne]
  exact ⟨hcls, hret⟩

theorem decode8_eq_unknown {ir u : Word} (hop : (opField ir).toNat = 0x8) (h : decode8 ir = .unknown u) :
    u = ir ∧ recognised ir = false := by
  have hop : (ir.extractLsb' 12 4).toNat = 0x8 := hop
  unfold decode8 at h
  split at h
  case h_10 => exact ⟨(Instr.unknown.inj h).symm, by simp_all [recognised, nField]⟩
  all_goals cases h

theorem decodeE_eq_unknown {ir u : Word} (hop : (opField ir).toNat = 0xE) (h : decodeE ir = .unknown u) :
    u = ir ∧ recognised ir = false := by
  have hop : (ir.extractLsb' 12 4).toNat = 0xE := hop
  unfold decodeE at h
  split at h
  case h_3 => exact ⟨(Instr.unknown.inj h).symm, by simp_all [recognised, nnField]⟩
  all_goals cases h

theorem decodeF_eq_unknown {ir u : Word} (hop : (opField ir).toNat = 0xF) (h : decodeF ir = .unknown u) :
    u = ir ∧ recognised ir = false := by
  have hop : (ir.extractLsb' 12 4).toNat = 0xF := hop
  unfold decodeF at h
  split at h
  case h_10 => exact ⟨(Instr.unknown.inj h).symm, by simp_all [recognised, nnField]⟩
  all_goals cases h

/-- Only the high nibbles 0, 8, E and F have unknown words; each of their dispatchers gives the word back. -/
theorem decode_eq_unknown_iff {ir u : Word} : decode ir = .unknown u ↔ u = ir ∧ recognised ir = false := by
  constructor
  · intro h
    unfold decode at h
    split at h
    case h_1 hop => exact decode0_eq_unknown hop h
    case h_9 hop => exact decode8_eq_unknown hop h
    case h_15 hop => exact decodeE_eq_unknown hop h
    case h_16 =>
      have hlt := (opField ir).isLt
      simp only [imp_false] at *
      exact decodeF_eq_unknown (by omega) h
    all_goals cases h
  · rintro ⟨rfl, h⟩
    exact decode_of_not_recognised h

theorem decode_wf (ir : Word) : (decode ir).wf = true := by
  cases h : decode ir with
  | unknown u =>
    obtain ⟨rfl, hrec⟩ := decode_eq_unknown_iff.1 h
    simp [Instr.wf, hrec]
  | _ => rfl

/-- Settles O8: a word decodes to `UNKNOWN` exactly as `decode_eq_unknown_iff` says. -/
theorem unknownExactlyWhenNotRecognised : Obligations.UnknownExactlyWhenNotRecognised := fun w =>
  ⟨decode_eq_unknown_iff.trans (and_iff_right rfl), decode_wf w, fun _ h => (decode_eq_unknown_iff.1 h).1⟩

/-! ### A word from its fields (R82, R83) -/

theorem encXYN_of_fields {ir : Word} {op n : Nibble} (hop : (opField ir).toNat = op.toNat)
    (hn : (nField ir).toNat = n.toNat) : encXYN op (xField ir) (yField ir) n = ir := by
  rw [← BitVec.eq_of_toNat_eq hop, ← BitVec.eq_of_toNat_eq hn, ← word_eq_fields]

theorem encXNN_of_fields {ir : Word} {op : Nibble} {nn : Byte} (hop : (opField ir).toNat = op.toNat)
    (hnn : (nnField ir).toNat = nn.toNat) : encXNN op (xField ir) nn = ir := by
  rw [← BitVec.eq_of_toNat_eq hop, ← BitVec.eq_of_toNat_eq hnn]
  refine BitVec.eq_of_getLsbD_eq fun i hi => ?_
  rw [getLsbD_encXNN]
  simp only [opField, xField, nnField, BitVec.getLsbD_extractLsb']
  split_ifs with h8 h12
  · simp [h8]
  · simp [show i - 8 < 4 by omega, show 8 + (i - 8) = i by omega]
  · simp [show i - 12 < 4 by omega, show 12 + (i - 12) = i by omega]

theorem encNNN_of_fields {ir : Word} {op : Nibble} (hop : (opField ir).toNat = op.toNat) :
    encNNN op (nnnField ir) = ir := by
  rw [← BitVec.eq_of_toNat_eq hop]
  refine BitVec.eq_of_getLsbD_eq fun i hi => ?_
  rw [getLsbD_encNNN]
  simp only [opField, nnnField, BitVec.getLsbD_extractLsb']
  split_ifs with h12
  · simp [h12]
  · simp [show i - 12 < 4 by omega, show 12 + (i - 12) = i by omega]

/-! ### Ignored bits (R87) -/

/-- The instructions whose words have an ignored nibble (R87). -/
def Instr.IgnoresBits (i : Instr) : Prop :=
  (∃ x y, i = .seReg x y ∨ i = .sneReg x y) ∨ ∃ x, i = .shr x ∨ i = .shl x

theorem decode_seReg (x y : RegId) (n : Nibble) : decode (encXYN 0x5 x y n) = .seReg x y := by
  simp [decode]

theorem decode_sneReg (x y : RegId) (n : Nibble) : decode (encXYN 0x9 x y n) = .sneReg x y := by
  simp [decode]

theorem decode_shr (x : RegId) (y : Nibble) : decode (encXYN 0x8 x y 0x6) = .shr x := by
  simp [decode, decode8]

theorem decode_shl (x : RegId) (y : Nibble) : decode (encXYN 0x8 x y 0xE) = .shl x := by
  simp [decode, decode8]

theorem encode_decode0 (ir : Word) : encode (decode0 ir) = ir := by
  unfold decode0
  split_ifs with hcls hret
  · exact hcls.symm
  · exact hret.symm
  · rfl

theorem encode_decode8 {ir : Word} (hop : (opField ir).toNat = 0x8) :
    encode (decode8 ir) = ir ∨ (decode8 ir).IgnoresBits := by
  unfold decode8
  split
  case h_7 => exact .inr (.inr ⟨_, .inl rfl⟩)
  case h_9 => exact .inr (.inr ⟨_, .inr rfl⟩)
  case h_10 => exact .inl rfl
  all_goals exact .inl (encXYN_of_fields hop ‹_›)

theorem encode_decodeE {ir : Word} (hop : (opField ir).toNat = 0xE) : encode (decodeE ir) = ir := by
  unfold decodeE
  split
  case h_3 => rfl
  all_goals exact encXNN_of_fields hop ‹_›

theorem encode_decodeF {ir : Word} (hop : (opField ir).toNat = 0xF) : encode (decodeF ir) = ir := by
  unfold decodeF
  split
  case h_10 => rfl
  all_goals exact encXNN_of_fields hop ‹_›

/-- A word is the encoding of what it decodes to, unless that instruction has ignored bits. -/
theorem encode_decode (ir : Word) : encode (decode ir) = ir ∨ (decode ir).IgnoresBits := by
  unfold decode
  split
  case h_1 => exact .inl (encode_decode0 ir)
  case h_2 hop | h_3 hop | h_11 hop | h_12 hop => exact .inl (encNNN_of_fields hop)
  case h_4 hop | h_5 hop | h_7 hop | h_8 hop | h_13 hop => exact .inl (encXNN_of_fields hop rfl)
  case h_6 => exact .inr (.inl ⟨_, _, .inl rfl⟩)
  case h_9 hop => exact encode_decode8 hop
  case h_10 => exact .inr (.inl ⟨_, _, .inr rfl⟩)
  case h_14 hop => exact .inl (encXYN_of_fields hop rfl)
  case h_15 hop => exact .inl (encode_decodeE hop)
  case h_16 =>
    have hlt := (opField ir).isLt
    simp only [imp_false] at *
    exact .inl (encode_decodeF (by omega))

/-- Settles O9: the ignored nibbles are free, and every other word is its own encoding. -/
theorem ignoredBitsDoNotChangeDecoding : Obligations.IgnoredBitsDoNotChangeDecoding :=
  ⟨fun x y n => ⟨decode_seReg x y n, decode_sneReg x y n, decode_shr x y, decode_shl x y⟩, encode_decode⟩

end Sys2Proof
end

section
/-! PROOFS. The statements of `40_cycle.md`: the fetch (R101), the three outcomes of a cycle (R100, R109,
R110), the timer tick (R106) and the unknown word (R107). -/

namespace Sys2Proof.Machine

/-! ### The fetch (R101) -/

theorem toNat_wordOfBytes (hi lo : Byte) : (wordOfBytes hi lo).toNat = hi.toNat * 256 + lo.toNat := by
  rw [wordOfBytes, BitVec.toNat_append, ← Nat.shiftLeft_add_eq_or_of_lt lo.isLt, Nat.shiftLeft_eq]

/-- Settles O10: both bytes exist exactly up to 0xFFE, and past it the cycle is a fetch fault. -/
theorem fetchIsBigEndianAndFaultsPastTheTop : Obligations.FetchIsBigEndianAndFaultsPastTheTop := by
  refine fun s => ⟨fun hpc => ?_, fun hpc hf => step_of_fetch_fault hf hpc⟩
  exact ⟨_, _, Memory.read?_of_le (by omega), Memory.read?_of_le (by omega), _, State.fetch_of_le hpc,
    toNat_wordOfBytes _ _⟩

/-! ### The three outcomes of a cycle (R100) -/

/-- A cycle that ends without a fault on a running core committed the handler of its word. -/
theorem step_completed {s t : State} (h : step s = .next t) (hf : s.fault = .none) (ht : t.fault = .none) :
    ∃ ir u, s.fetch = some ir ∧ exec (decode ir) s.clearReport = .next u ∧ t = u.endCycle := by
  obtain ⟨hs, -⟩ | ⟨-, -, rfl⟩ | ⟨-, ir, u, hir, he, ⟨-, rfl⟩ | ⟨hu, rfl⟩⟩ := step_cases h
  · exact absurd hf hs
  · cases ht
  · exact ⟨ir, u, hir, he, rfl⟩
  · exact absurd ht hu

@[simp] theorem State.endCycle_fault (s : State) : s.endCycle.fault = s.fault := by rw [State.endCycle_eq]

/-- A cycle that ends with a fault, a halted core's included, changed nothing but the latch (R109, R110). -/
theorem step_faulted {s t : State} (h : step s = .next t) (ht : t.fault ≠ .none) : t = s.latch t.fault := by
  obtain ⟨-, rfl⟩ | ⟨-, -, rfl⟩ | ⟨-, ir, u, -, -, ⟨hu, rfl⟩ | ⟨-, rfl⟩⟩ := step_cases h
  · rfl
  · rfl
  · exact absurd ((State.endCycle_fault u).trans hu) ht
  · rfl

/-- Nothing stops the machine (R100). -/
theorem step_answers (s : State) : ∃ t, step s = .next t := by
  by_cases hf : s.fault = .none
  · cases hir : s.fetch with
    | none => exact ⟨_, step_of_fetch_fault hf (State.fetch_eq_none.1 hir)⟩
    | some ir =>
      obtain ⟨u, he⟩ := exec_answers (decode ir) s.clearReport
      rw [step_of_exec hf hir he]
      split
      · exact ⟨_, rfl⟩
      · exact ⟨_, rfl⟩
  · exact ⟨s, step_of_halted hf⟩

/-- Settles O12: a running core's cycle is told by `FAULT` at its end, a halted core's is none. -/
theorem everyCycleCompletesFaultsPreciselyOrIsHalted :
    Obligations.EveryCycleCompletesFaultsPreciselyOrIsHalted := by
  intro s
  by_cases hf : s.fault = .none
  · obtain ⟨t, h⟩ := step_answers s
    refine ⟨t, h, ?_⟩
    by_cases ht : t.fault = .none
    · exact .inl ⟨hf, ht⟩
    · exact .inr (.inl ⟨hf, ht, step_faulted h ht⟩)
  · exact ⟨s, step_of_halted hf, .inr (.inr ⟨hf, rfl⟩)⟩

/-- Settles O4: no cycle moves a halted core, and reset gives the values of R32. -/
theorem haltedCoreStaysHaltedUntilReset : Obligations.HaltedCoreStaysHaltedUntilReset := fun s hf =>
  ⟨run_of_halted hf, rfl, rfl, State.resetWith_reg s.mem.glyphs, fun _ => rfl⟩

/-! ### The timer tick (R106) -/

@[simp] theorem State.endCycle_dt (s : State) : s.endCycle.dt = tickTimer s.dt := by rw [State.endCycle_eq]
@[simp] theorem State.endCycle_st (s : State) : s.endCycle.st = tickTimer s.st := by rw [State.endCycle_eq]
@[simp] theorem State.endCycle_reg (s : State) (r : RegId) : s.endCycle.reg r = s.reg r := by
  rw [State.endCycle_eq]; rfl

/-- Each timer has one writer among the handlers (R33). -/
theorem exec_timers {i : Instr} {s t : State} (h : exec i s = .next t) :
    (t.dt = s.dt ∨ ∃ x, i = .ldDTVx x) ∧ (t.st = s.st ∨ ∃ x, i = .ldSTVx x) := by
  cases i with
  | ldDTVx x =>
    obtain rfl := Host.Outcome.next.inj h
    exact ⟨.inr ⟨x, rfl⟩, .inl rfl⟩
  | ldSTVx x =>
    obtain rfl := Host.Outcome.next.inj h
    exact ⟨.inl rfl, .inr ⟨x, rfl⟩⟩
  | ret => obtain ⟨-, rfl⟩ | ⟨_, _, rfl⟩ := execRet_cases h <;> exact ⟨.inl rfl, .inl rfl⟩
  | call nnn => obtain ⟨-, rfl⟩ | ⟨_, rfl⟩ := execCall_cases h <;> exact ⟨.inl rfl, .inl rfl⟩
  | drw x y n => obtain ⟨-, -, rfl⟩ | ⟨-, _, -, rfl⟩ := execDrw_cases h <;> exact ⟨.inl rfl, .inl rfl⟩
  | ldVxK x => obtain ⟨-, rfl⟩ | ⟨_, -, rfl⟩ := execLdVxK_cases h <;> exact ⟨.inl rfl, .inl rfl⟩
  | ldB x =>
    obtain ⟨-, rfl⟩ | ⟨-, rfl⟩ := storeBlock_cases (by simp [bcdDigits]) h <;> exact ⟨.inl rfl, .inl rfl⟩
  | storeRegs x =>
    obtain ⟨-, rfl⟩ | ⟨-, rfl⟩ := storeBlock_cases (by simp) h <;> exact ⟨.inl rfl, .inl rfl⟩
  | loadRegs x => obtain ⟨-, rfl⟩ | ⟨-, rfl⟩ := execLoadRegs_cases h <;> exact ⟨.inl rfl, .inl rfl⟩
  | _ =>
    obtain rfl := Host.Outcome.next.inj h
    exact ⟨.inl rfl, .inl rfl⟩

/-- A cycle executes one instruction: the one its word decodes to. -/
theorem executes_iff {s : State} {ir : Word} (hir : s.fetch = some ir) (i : Instr) :
    Executes s i ↔ decode ir = i := by
  simp [Executes, hir]

/-- Settles O15: a completed cycle ticks what the handler left in the timers, and only `LD DT, Vx` and
`LD ST, Vx` leave there what was not there before. -/
theorem timersTickOncePerCompletedCycle : Obligations.TimersTickOncePerCompletedCycle := by
  refine fun s t h => ⟨fun hf ht => ?_, fun ht => ?_⟩
  · obtain ⟨ir, u, hir, he, rfl⟩ := step_completed h hf ht
    obtain ⟨hdt, hst⟩ := exec_timers he
    simp only [executes_iff hir, State.endCycle_dt, State.endCycle_st, State.endCycle_reg, tickTimer_toNat]
    generalize decode ir = i at he hdt hst ⊢
    refine ⟨?_, fun hi => ?_, ?_, fun hi => ?_, ?_⟩
    · rintro x rfl
      obtain rfl := Host.Outcome.next.inj he
      rfl
    · rw [hdt.resolve_right (not_exists.2 hi), State.clearReport_dt]
    · rintro x rfl
      obtain rfl := Host.Outcome.next.inj he
      rfl
    · rw [hst.resolve_right (not_exists.2 hi), State.clearReport_st]
    · rintro x rfl
      obtain rfl := Host.Outcome.next.inj he
      exact State.reg_setReg_same ..
  · rw [step_faulted h ht]
    exact ⟨rfl, rfl⟩

/-! ### The unknown word (R107) -/

/-- A running core's cycle on an unrecognised word commits the handler of `UNKNOWN`. -/
theorem step_of_not_recognised {s : State} {ir : Word} (hf : s.fault = .none) (hir : s.fetch = some ir)
    (hrec : recognised ir = false) : step s = .next (s.clearReport.report ir).advance.endCycle := by
  have he : exec (decode ir) s.clearReport = .next (s.clearReport.report ir).advance := by
    rw [decode_of_not_recognised hrec]
    rfl
  exact (step_of_exec hf hir he).trans (if_pos hf)

/-- Settles O47: the handler writes the diagnostic and `PC`, and the end of the cycle the timers and the
latch. -/
theorem unknownWordIsANoOpWithADiagnostic : Obligations.UnknownWordIsANoOpWithADiagnostic := by
  refine fun ir s => ⟨⟨_, rfl, rfl, rfl, OnlyPCChanges.of_setPC (s.report ir) s.npc⟩, fun hf hir hrec => ?_⟩
  refine ⟨_, step_of_not_recognised hf hir hrec, ?_⟩
  rw [State.endCycle_eq]
  exact ⟨hf, rfl, rfl, tickTimer_toNat _, tickTimer_toNat _, fun _ _ => rfl, rfl, fun _ => rfl, ⟨rfl, rfl⟩,
    fun _ _ _ _ => rfl⟩

end Sys2Proof.Machine
end

section
/-! PROOFS. The statements of `41_control_flow.md`: return, jumps, call (R121 to R123, R128) and the skips on
register values (R124 to R127). -/

namespace Sys2Proof.Machine

open Sys2Proof.Laws

/-! ### Return and call (R121, R123) -/

theorem execRet_of_empty {s : State} (h : s.sp.val = 0) : execRet s = .next (s.latch .stackUnderflow) := by
  obtain ⟨t, ht⟩ := exec_answers .ret s
  obtain ⟨-, rfl⟩ | ⟨hpos, -, -⟩ := execRet_cases ht
  · exact ht
  · omega

theorem execCall_of_full {s : State} (nnn : Addr12) (h : s.sp.val = 16) :
    execCall nnn s = .next (s.latch .stackOverflow) := by
  obtain ⟨t, ht⟩ := exec_answers (.call nnn) s
  obtain ⟨-, rfl⟩ | ⟨hlt, -⟩ := execCall_cases ht
  · exact ht
  · omega

theorem toNat_addrOperand (nnn : Addr12) : (addrOperand nnn).toNat = nnn.toNat :=
  BitVec.toNat_setWidth_of_le (by decide)

/-- Settles O19: `RET` answers, and its two outcomes are told apart by the depth. -/
theorem retPopsOrUnderflows : Obligations.RetPopsOrUnderflows := by
  refine ⟨EncodeDecode.ret rfl, fun s => ⟨fun hpos => ?_, execRet_of_empty⟩⟩
  obtain ⟨t, ht⟩ := exec_answers .ret s
  obtain ⟨hempty, -⟩ | ⟨-, hlt, rfl⟩ := execRet_cases ht
  · omega
  · exact ⟨_, ht, Vector.getElem?_eq_getElem hlt, rfl, OnlyPCChanges.of_setPC _ _⟩

/-- Settles O21: `CALL` answers, and its two outcomes are told apart by the depth. -/
theorem callPushesOrOverflows : Obligations.CallPushesOrOverflows := by
  refine fun nnn s => ⟨EncodeDecode.call nnn rfl, fun hlt => ?_, execCall_of_full nnn⟩
  obtain ⟨t, ht⟩ := exec_answers (.call nnn) s
  obtain ⟨hfull, -⟩ | ⟨_, rfl⟩ := execCall_cases ht
  · omega
  · exact ⟨_, ht, toNat_addrOperand nnn, Vector.getElem?_set_self hlt, rfl,
      fun k hk => Vector.getElem?_set_ne hlt hk.symm, OnlyPCChanges.of_setPC _ _⟩

/-! ### Jumps (R122, R128) -/

/-- The sum of R128 stays below 2^16: it is at most 0x10FE. -/
theorem toNat_addrOperand_add_regWord (nnn : Addr12) (s : State) (x : RegId) :
    (addrOperand nnn + s.regWord x).toNat = nnn.toNat + (s.reg x).toNat := by
  have haddr := toNat_addrOperand nnn
  have hreg : (s.regWord x).toNat = (s.reg x).toNat := BitVec.toNat_setWidth_of_le (by decide)
  have := nnn.isLt
  have := (s.reg x).isLt
  rw [BitVec.toNat_add_of_lt (by omega), haddr, hreg]

/-- Settles O20: both jumps are one write of `PC`. -/
theorem jumpsAssignTheirTargets : Obligations.JumpsAssignTheirTargets := fun nnn s =>
  ⟨EncodeDecode.jp nnn rfl, EncodeDecode.jpV0 nnn rfl,
    ⟨_, rfl, toNat_addrOperand nnn, OnlyPCChanges.of_setPC s _⟩,
    ⟨_, rfl, toNat_addrOperand_add_regWord nnn s V0, OnlyPCChanges.of_setPC s _⟩⟩

/-! ### Skips (R120, R124 to R127) -/

theorem State.npc_add_two (s : State) : s.npc + 2 = s.pc + 4 := BitVec.add_assoc s.pc 2 2

/-- A skip on equal bytes (R124, R126). -/
theorem State.skipIf_beq_pc (s : State) (a b : Byte) :
    (s.skipIf (a == b)).pc = if a = b then s.pc + 4 else s.pc + 2 := by
  rw [State.skipIf_pc, State.npc_add_two]
  by_cases h : a = b
  · simp [h]
  · simp [h, State.npc]

/-- A skip on different bytes (R125, R127): the two targets change places. -/
theorem State.skipIf_bne_pc (s : State) (a b : Byte) :
    (s.skipIf (a != b)).pc = if a = b then s.pc + 2 else s.pc + 4 := by
  rw [State.skipIf_pc, State.npc_add_two]
  by_cases h : a = b
  · simp [h, State.npc]
  · simp [h]

/-- A skip is one write of `PC`, whatever its condition. -/
theorem OnlyPCChanges.of_skipIf (s : State) (c : Bool) : OnlyPCChanges s (s.skipIf c) := .of_setPC s _

/-- Settles O23: the two skips compare a register with the immediate. -/
theorem skipsOnImmediate : Obligations.SkipsOnImmediate := fun x nn s =>
  ⟨EncodeDecode.seImm x nn rfl, EncodeDecode.sneImm x nn rfl,
    ⟨_, rfl, .of_skipIf s _, s.skipIf_beq_pc (s.reg x) nn⟩,
    ⟨_, rfl, .of_skipIf s _, s.skipIf_bne_pc (s.reg x) nn⟩⟩

/-- Settles O24: the low nibble is ignored, and the two skips compare two registers. -/
theorem skipsOnRegister : Obligations.SkipsOnRegister := fun x y n s =>
  ⟨decode_seReg x y n, decode_sneReg x y n,
    ⟨_, rfl, .of_skipIf s _, s.skipIf_beq_pc (s.reg x) (s.reg y)⟩,
    ⟨_, rfl, .of_skipIf s _, s.skipIf_bne_pc (s.reg x) (s.reg y)⟩⟩

end Sys2Proof.Machine
end

section
/-! PROOFS. The statements of `42_alu.md`: the plain register writes (R132 to R137) and the five operations
that write a result and then the flag (R138 to R142). -/

namespace Sys2Proof.Machine

open Sys2Proof.Laws

/-! ### Plain register writes (R132 to R137) -/

/-- Settles O25: both instructions are one register write, the second of a sum. -/
theorem loadAndAddImmediate : Obligations.LoadAndAddImmediate := fun x nn s =>
  ⟨EncodeDecode.ldImm x nn rfl, EncodeDecode.addImm x nn rfl,
    ⟨_, rfl, s.reg_setReg_same x nn, rfl, .of_setReg s x nn⟩,
    ⟨_, rfl, (congrArg BitVec.toNat (s.reg_setReg_same x _)).trans (BitVec.toNat_add _ _), rfl,
      .of_setReg s x _⟩⟩

/-- A bit of a register just written is a bit of the byte written to it. -/
theorem State.getLsbD_reg_setReg_same (s : State) (x : RegId) (b : Byte) (k : Nat) :
    ((s.setReg x b).reg x).getLsbD k = b.getLsbD k := by
  rw [State.reg_setReg_same]

/-- Settles O26: the four instructions are one register write each, three of them of a bitwise operation. -/
theorem assignAndLogicLeaveTheFlagAlone : Obligations.AssignAndLogicLeaveTheFlagAlone := fun x y s =>
  ⟨EncodeDecode.ldReg x y rfl, EncodeDecode.orReg x y rfl, EncodeDecode.andReg x y rfl,
    EncodeDecode.xorReg x y rfl,
    ⟨_, rfl, s.reg_setReg_same x _, rfl, .of_setReg s x _⟩,
    ⟨_, rfl, rfl, .of_setReg s x _, fun k _ =>
      (s.getLsbD_reg_setReg_same x _ k).trans BitVec.getLsbD_or⟩,
    ⟨_, rfl, rfl, .of_setReg s x _, fun k _ =>
      (s.getLsbD_reg_setReg_same x _ k).trans BitVec.getLsbD_and⟩,
    ⟨_, rfl, rfl, .of_setReg s x _, fun k _ =>
      (s.getLsbD_reg_setReg_same x _ k).trans BitVec.getLsbD_xor⟩⟩

/-! ### A result and then the flag (R130, R138 to R142) -/

/-- The result reaches its register when the flag is not written over it (R130). -/
theorem State.toNat_reg_setResultFlag (s : State) {x : RegId} (hx : x ≠ VF) (res : Byte) (flag : Bool) :
    ((s.setResultFlag x res flag).reg x).toNat = res.toNat := by
  rw [State.reg_setResultFlag, if_neg hx, if_pos rfl]

/-- Settles O27: the sum is that of bytes, the flag that of natural numbers. -/
theorem addWritesSumThenCarry : Obligations.AddWritesSumThenCarry := fun x y s =>
  ⟨EncodeDecode.addReg x y rfl, _, rfl, rfl, .of_setResultFlag s x _ _,
    fun hx => (s.toNat_reg_setResultFlag hx _ _).trans (BitVec.toNat_add _ _),
    (s.reg_VF_setResultFlag x _ _).trans (flagByte_decide _)⟩

/-- The difference of two bytes is the difference of the integers mod 256 (R139, R141). -/
theorem toNat_sub_eq_emod (a b : Byte) : ((a - b).toNat : Int) = ((a.toNat : Int) - b.toNat) % 256 := by
  have := b.isLt
  rw [BitVec.toNat_sub]
  omega

/-- What a subtraction of `b` from `a` into `V[x]` leaves: the difference, then the strict comparison. -/
theorem setResultFlag_sub_spec (s : State) (x : RegId) (a b : Byte) {t : State}
    (ht : t = (s.setResultFlag x (a - b) (greaterFlag a b)).advance) :
    t.pc = s.pc + 2 ∧ OnlyRegsChange (fun r => r = x ∨ r = VF) s t ∧
      (x ≠ VF → ((t.reg x).toNat : Int) = ((a.toNat : Int) - b.toNat) % 256) ∧
      t.reg VF = if b.toNat < a.toNat then 1 else 0 := by
  subst ht
  refine ⟨rfl, .of_setResultFlag s x _ _, fun hx => ?_, ?_⟩
  · exact (congrArg Int.ofNat (s.toNat_reg_setResultFlag hx _ _)).trans (toNat_sub_eq_emod a b)
  · exact (s.reg_VF_setResultFlag x _ _).trans (flagByte_decide _)

/-- Settles O28: the two subtractions differ in the order of their operands alone. -/
theorem subtractionsWriteDifferenceThenStrictFlag :
    Obligations.SubtractionsWriteDifferenceThenStrictFlag := fun x y s =>
  ⟨EncodeDecode.subReg x y rfl, EncodeDecode.subnReg x y rfl,
    ⟨_, rfl, setResultFlag_sub_spec s x (s.reg x) (s.reg y) rfl⟩,
    ⟨_, rfl, setResultFlag_sub_spec s x (s.reg y) (s.reg x) rfl⟩⟩

/-! ### Shifts (R140, R142) -/

theorem toNat_flagByte (c : Bool) : (flagByte c).toNat = c.toNat := by
  cases c <;> rfl

/-- The bit that `SHR` shifts out is the remainder of the halving (R140). -/
theorem toNat_flagByte_shrFlag (a : Byte) : (flagByte (shrFlag a)).toNat = a.toNat % 2 := by
  rw [toNat_flagByte, shrFlag, BitVec.getLsbD, Nat.toNat_testBit, pow_zero, Nat.div_one]

/-- The bit that `SHL` shifts out is the carry of the doubling (R142). -/
theorem toNat_flagByte_shlFlag (a : Byte) : (flagByte (shlFlag a)).toNat = a.toNat / 128 := by
  have := a.isLt
  rw [toNat_flagByte, shlFlag, BitVec.getLsbD, Nat.toNat_testBit]
  omega

theorem toNat_ushiftRight_one (a : Byte) : (a >>> 1).toNat = a.toNat / 2 := by
  rw [BitVec.toNat_ushiftRight, Nat.shiftRight_one]

theorem toNat_shiftLeft_one (a : Byte) : (a <<< 1).toNat = a.toNat * 2 % 256 := by
  rw [BitVec.toNat_shiftLeft, Nat.shiftLeft_eq, pow_one]

/-- Settles O29: the `y` field is ignored, and each shift is arithmetic on the old byte. -/
theorem shiftsMoveTheBoundaryBitIntoVF : Obligations.ShiftsMoveTheBoundaryBitIntoVF := fun x y s =>
  ⟨decode_shr x y, decode_shl x y,
    ⟨_, rfl, rfl, .of_setResultFlag s x _ _,
      fun hx => (s.toNat_reg_setResultFlag hx _ _).trans (toNat_ushiftRight_one _),
      (congrArg BitVec.toNat (s.reg_VF_setResultFlag x _ _)).trans (toNat_flagByte_shrFlag _)⟩,
    ⟨_, rfl, rfl, .of_setResultFlag s x _ _,
      fun hx => (s.toNat_reg_setResultFlag hx _ _).trans (toNat_shiftLeft_one _),
      (congrArg BitVec.toNat (s.reg_VF_setResultFlag x _ _)).trans (toNat_flagByte_shlFlag _)⟩⟩

end Sys2Proof.Machine
end

section
/-! PROOFS. The statements of `43_index_memory.md`: the writes of `I` (R152 to R154), the block stores (R155,
R156) and the block load (R157). -/

namespace Sys2Proof.Machine

open Sys2Proof.Laws

/-! ### Block stores (R150, R155, R156) -/

/-- A block store inside memory on a canonical memory: the bytes read back in order, the rest is left. -/
theorem storeBlock_spec {bs : List Byte} {s : State} (hw : s.mem.wf = true)
    (h : s.blockBase + bs.length ≤ 0x1000) :
    ∃ t, storeBlock bs s = .next t ∧
      (∀ k, k < bs.length → t.mem.read? (s.blockBase + k) = bs[k]?) ∧
      t.pc = s.pc + 2 ∧ SameMemoryBut s.blockBase bs.length s t ∧ OnlyPCChanges { s with mem := t.mem } t :=
  ⟨_, storeBlock_of_le h,
    fun _ hk => (Memory.read?_pokeList_inside hw h hk).trans (List.getElem?_eq_getElem hk).symm,
    rfl, SameMemoryBut.of_pokeList hw h, OnlyPCChanges.of_setPC _ _⟩

/-- The digits of a byte are decimal digits, the first at most 2, and their decimal value is the byte (R155). -/
theorem bcdDigits_spec (b : Byte) : ∃ h d u, bcdDigits b = [h, d, u] ∧
    h.toNat ≤ 2 ∧ d.toNat ≤ 9 ∧ u.toNat ≤ 9 ∧ b.toNat = 100 * h.toNat + 10 * d.toNat + u.toNat := by
  have hb := b.isLt
  refine ⟨_, _, _, rfl, ?_⟩
  simp only [BitVec.toNat_ofNat]
  omega

/-- Settles O33: `LD B, Vx` is the block store of the three digits. -/
theorem bcdStoresThreeDigits : Obligations.BcdStoresThreeDigits := by
  refine fun x s hw => ⟨EncodeDecode.ldB x rfl, fun hin => ?_, fun hout => ?_⟩
  · obtain ⟨h, d, u, hbcd, hh, hd, hu, hval⟩ := bcdDigits_spec (s.reg x)
    have hfit : s.blockBase + [h, d, u].length ≤ 0x1000 := Nat.succ_le_succ hin
    obtain ⟨t, ht, hread, hpc, hmem, hframe⟩ := storeBlock_spec hw hfit
    rw [← hbcd] at ht
    exact ⟨t, h, d, u, ht, hread 0 (by simp), hread 1 (by simp), hread 2 (by simp), hh, hd, hu, hval, hpc,
      hmem, hframe⟩
  · exact storeBlock_of_lt (by simp [bcdDigits]) (Nat.succ_lt_succ hout)

/-- Settles O34: `LD [I], Vx` is the block store of `V[0]` to `V[x]`. -/
theorem registerDumpStoresTheBlock : Obligations.RegisterDumpStoresTheBlock := by
  intro x s hw
  have hlen := s.regsUpTo_length x
  refine ⟨EncodeDecode.storeRegs x rfl, fun hin => ?_, fun hout => ?_⟩
  · obtain ⟨t, ht, hread, hpc, hmem, hframe⟩ :=
      storeBlock_spec (bs := s.regsUpTo x) hw (by omega)
    rw [hlen] at hread hmem
    exact ⟨t, ht, fun k hk => (hread k.toNat (Nat.lt_succ_of_le hk)).trans (s.regsUpTo_getElem? x k hk), hpc,
      hmem, hframe⟩
  · exact storeBlock_of_lt (by omega) (by omega)

/-! ### The block load (R157) -/

/-- Registers loaded from the first `n` values of `f` hold them in order. -/
theorem State.reg_setRegs_map_range (s : State) (f : Nat → Byte) {n : Nat} {r : RegId} (h : r.toNat < n) :
    (s.setRegs ((List.range n).map f)).reg r = f r.toNat := by
  simp [State.reg_setRegs, h]

/-- Settles O35: `LD Vx, [I]` answers, and its two outcomes are told apart by the end of the block. -/
theorem registerLoadReadsTheBlock : Obligations.RegisterLoadReadsTheBlock := by
  intro x s
  obtain ⟨t, ht⟩ := exec_answers (.loadRegs x) s
  refine ⟨EncodeDecode.loadRegs x rfl, fun hin => ?_, fun hout => ?_⟩
  · obtain ⟨hout, -⟩ | ⟨-, rfl⟩ := execLoadRegs_cases ht
    · omega
    · refine ⟨_, ht, fun k hk => ?_, rfl, .of_regs _ _ rfl fun r hr => ?_⟩
      · rw [Memory.read?_of_le (by omega), State.advance_reg,
          State.reg_setRegs_map_range _ _ (Nat.lt_succ_of_le hk)]
      · exact s.reg_setRegs_of_length_le (by simpa using hr)
  · obtain ⟨-, rfl⟩ | ⟨hin, -⟩ := execLoadRegs_cases ht
    · exact ht
    · omega

/-! ### Writes of the index register (R152 to R154) -/

theorem State.toNat_regWord (s : State) (x : RegId) : (s.regWord x).toNat = (s.reg x).toNat :=
  BitVec.toNat_setWidth_of_le (by decide)

/-- The mask of `I` keeps 12 bits. -/
theorem toNat_and_0x0FFF (w : Word) : (w &&& 0x0FFF).toNat = w.toNat % 4096 :=
  (BitVec.toNat_and ..).trans (Nat.and_two_pow_sub_one_eq_mod w.toNat 12)

/-- The masked sum is that of natural numbers, since 4096 divides 2^16 (R153). -/
theorem toNat_masked_add_regWord (w : Word) (s : State) (x : RegId) :
    ((w + s.regWord x) &&& 0x0FFF).toNat = (w.toNat + (s.reg x).toNat) % 4096 := by
  rw [toNat_and_0x0FFF, BitVec.toNat_add, s.toNat_regWord]
  exact Nat.mod_mod_of_dvd _ (by decide)

/-- The mask never bites in `LD F, Vx`: five times a byte is at most 1275 (R154). -/
theorem toNat_masked_regWord_mul_five (s : State) (x : RegId) :
    ((s.regWord x * 5) &&& 0x0FFF).toNat = (s.reg x).toNat * 5 := by
  have hlt := (s.reg x).isLt
  have hfive : (5 : Word).toNat = 5 := rfl
  rw [toNat_and_0x0FFF, BitVec.toNat_mul, s.toNat_regWord, hfive]
  omega

/-- Settles O32: the three instructions are one write of `I` each. -/
theorem indexWritesAreMasked : Obligations.IndexWritesAreMasked := fun nnn x s =>
  ⟨EncodeDecode.ldI nnn rfl, EncodeDecode.addI x rfl, EncodeDecode.ldF x rfl,
    ⟨_, rfl, toNat_addrOperand nnn, rfl, OnlyPCChanges.of_setPC _ _⟩,
    ⟨_, rfl, toNat_masked_add_regWord s.i s x, rfl, OnlyPCChanges.of_setPC _ _⟩,
    ⟨_, rfl, toNat_masked_regWord_mul_five s x, rfl, OnlyPCChanges.of_setPC _ _⟩⟩

end Sys2Proof.Machine
end

section
/-! PROOFS. The statements of `44_display.md`: the clear (R161) and the draw (R162 to R166). -/

namespace Sys2Proof.Machine

open Sys2Proof.Laws

/-! ### The clear (R161) -/

/-- The framebuffer that `CLS` writes is that of reset (R32). -/
theorem pixelOf_replicate_zero (c r : Nat) : pixelOf (Vector.replicate 32 0) c r = false :=
  State.resetWith_pixel defaultGlyphs c r

/-- Settles O39: `CLS` is one write of the framebuffer. -/
theorem clearTurnsEveryPixelOff : Obligations.ClearTurnsEveryPixelOff :=
  ⟨EncodeDecode.cls rfl, fun _ =>
    ⟨_, rfl, fun c r _ _ => pixelOf_replicate_zero c r, rfl, OnlyPCChanges.of_setPC _ _⟩⟩

/-! ### The sprite as `DRW` reads it (R160, R166) -/

/-- The `n` sprite bytes at `I`, top row first. -/
def State.spriteRows (s : State) (n : Nat) : List Byte :=
  (List.range n).map fun k => s.mem.peek (s.blockBase + k)

@[simp] theorem State.length_spriteRows (s : State) (n : Nat) : (s.spriteRows n).length = n := by
  simp [State.spriteRows]

/-- A sprite inside memory has the bytes that reads at its addresses give. -/
theorem State.spriteRows_getElem?_eq_some {s : State} {n k : Nat} {b : Byte}
    (hin : n = 0 ∨ s.blockBase + n ≤ 0x1000) :
    (s.spriteRows n)[k]? = some b ↔ k < n ∧ s.mem.read? (s.blockBase + k) = some b := by
  by_cases hk : k < n
  · have ha : s.blockBase + k ≤ 0xFFF := by omega
    simp [State.spriteRows, hk, Memory.read?_of_le ha]
  · simp [State.spriteRows, hk]

/-- The pixels a sprite covers are the positions that the loops of R162 toggle. -/
theorem mem_spritePositions_spriteRows {s : State} {x y : RegId} {n c r : Nat}
    (hin : n = 0 ∨ s.blockBase + n ≤ 0x1000) :
    (c, r) ∈ spritePositions ((s.reg x).toNat % 64) ((s.reg y).toNat % 32) 0 (s.spriteRows n) ↔
      SpriteCovers s x y n c r := by
  simp only [mem_spritePositions, State.spriteRows_getElem?_eq_some hin, SpriteCovers, Prod.mk.injEq,
    Nat.zero_add]
  constructor
  · rintro ⟨j, col, b, ⟨hj, hb⟩, hcol, hbit, hpos⟩
    exact ⟨j, col, b, hj, hcol, hb, hbit, hpos⟩
  · rintro ⟨j, col, b, hj, hcol, hb, hbit, hpos⟩
    exact ⟨j, col, b, ⟨hj, hb⟩, hcol, hbit, hpos⟩

/-! ### The draw (R162 to R166) -/

/-- The framebuffer and the collision flag that `DRW Vx, Vy, n` leaves. -/
def State.drawn (s : State) (x y : RegId) (n : Nat) : Canvas :=
  drawRows ((s.reg x).toNat % 64) ((s.reg y).toNat % 32) 0 (s.spriteRows n) ⟨s.fb, false⟩

section
variable {s : State} {x y : RegId} {n : Nat} (hn : n ≤ 32) (hin : n = 0 ∨ s.blockBase + n ≤ 0x1000)
include hn hin

theorem State.drawn_pixel_of_covers {c r : Nat} (hr : r < 32) (h : SpriteCovers s x y n c r) :
    pixelOf (s.drawn x y n).fb c r = !s.pixel c r := by
  have hmem := (mem_spritePositions_spriteRows hin).2 h
  rw [State.drawn, (drawRows_spec _ _ (by simpa using hn) _).1 c r hr, decide_eq_true hmem, Bool.xor_true]
  rfl

theorem State.drawn_pixel_of_not_covers {c r : Nat} (hr : r < 32) (h : ¬ SpriteCovers s x y n c r) :
    pixelOf (s.drawn x y n).fb c r = s.pixel c r := by
  have hmem := mt (mem_spritePositions_spriteRows hin).1 h
  rw [State.drawn, (drawRows_spec _ _ (by simpa using hn) _).1 c r hr, decide_eq_false hmem, Bool.xor_false]
  rfl

/-- A draw collides exactly when a covered pixel was on (R164): a pixel that goes off is a covered one. -/
theorem State.drawn_hit_iff :
    (s.drawn x y n).hit = true ↔
      ∃ c r, c < 64 ∧ r < 32 ∧ SpriteCovers s x y n c r ∧ s.pixel c r = true := by
  refine (drawRows_hit_iff _ _ (by simpa using hn) s.fb).trans ?_
  constructor
  · rintro ⟨c, r, hc, hr, hon, hoff⟩
    refine ⟨c, r, hc, hr, ?_, hon⟩
    by_contra hcov
    have hsame := State.drawn_pixel_of_not_covers hn hin hr hcov
    exact absurd (hon.symm.trans (hsame.symm.trans hoff)) (by decide)
  · rintro ⟨c, r, hc, hr, hcov, hon⟩
    exact ⟨c, r, hc, hr, hon, (State.drawn_pixel_of_covers hn hin hr hcov).trans (by rw [hon]; rfl)⟩

end

theorem execDrw_of_le {x y : RegId} {n : Nibble} {s : State}
    (h : n.toNat = 0 ∨ s.blockBase + n.toNat ≤ 0x1000) :
    execDrw x y n s = .next
      ((s.setFB (s.drawn x y n.toNat).fb).setReg VF (flagByte (s.drawn x y n.toNat).hit)).advance := by
  obtain ⟨t, ht⟩ := exec_answers (.drw x y n) s
  obtain ⟨hn, hout, -⟩ | ⟨-, cv, rfl, rfl⟩ := execDrw_cases ht
  · omega
  · exact ht

theorem execDrw_of_lt {x y : RegId} {n : Nibble} {s : State} (hn : 0 < n.toNat)
    (h : 0x1000 < s.blockBase + n.toNat) : execDrw x y n s = .next (s.latch .outOfBoundsMemory) := by
  obtain ⟨t, ht⟩ := exec_answers (.drw x y n) s
  obtain ⟨-, -, rfl⟩ | ⟨hin, -⟩ := execDrw_cases ht
  · exact ht
  · omega

/-- Settles O40: a sprite inside memory leaves `State.drawn` and its collision flag, any other faults. -/
theorem drawXorsTheSpriteAndReportsCollision : Obligations.DrawXorsTheSpriteAndReportsCollision := by
  refine fun x y n s => ⟨EncodeDecode.drw x y n rfl, fun h => ?_, fun hn h => ?_⟩
  · have hn : n.toNat ≤ 32 := by have : n.toNat < 16 := n.isLt; omega
    have hin : n.toNat = 0 ∨ s.blockBase + n.toNat ≤ 0x1000 := by omega
    have hhit := State.drawn_hit_iff (x := x) (y := y) hn hin
    refine ⟨_, execDrw_of_le hin, fun c r _ hr => State.drawn_pixel_of_covers hn hin hr,
      fun c r _ hr => State.drawn_pixel_of_not_covers hn hin hr, fun hon => ?_, fun hoff => ?_, rfl,
      .of_setReg (s.setFB _) VF _⟩
    · exact (State.reg_setReg_same _ _ _).trans (flagByte_eq_one.2 (hhit.2 hon))
    · have hmiss : (s.drawn x y n.toNat).hit = false := by
        rw [← Bool.not_eq_true, hhit]
        rintro ⟨c, r, hc, hr, hcov, hon⟩
        exact absurd (hon.symm.trans (hoff c r hc hr hcov)) (by decide)
      exact (State.reg_setReg_same _ _ _).trans (congrArg flagByte hmiss)
  · exact execDrw_of_lt hn (by omega)

end Sys2Proof.Machine
end

section
/-! PROOFS. The statements of `45_keys_timers.md`: the key skips (R170 to R172), the wait for a key (R174) and
the timer moves (R173, R175, R176). -/

namespace Sys2Proof.Machine

open Sys2Proof.Laws

/-! ### Key skips (R170 to R172) -/

/-- The low nibble of a byte is its remainder mod 16 (R170). -/
theorem State.keyOf_eq (s : State) (x : RegId) : s.keyOf x = s.keys.getLsbD ((s.reg x).toNat % 16) := by
  rw [State.keyOf, BitVec.extractLsb'_toNat, Nat.shiftRight_zero]

/-- A skip when a key is down (R171). -/
theorem State.skipIf_keyOf_pc (s : State) (x : RegId) :
    (s.skipIf (s.keyOf x)).pc = if s.keys.getLsbD ((s.reg x).toNat % 16) then s.pc + 4 else s.pc + 2 := by
  rw [State.skipIf_pc, State.npc_add_two, State.keyOf_eq, State.npc]

/-- A skip when a key is up (R172): the two targets change places. -/
theorem State.skipIf_not_keyOf_pc (s : State) (x : RegId) :
    (s.skipIf (!s.keyOf x)).pc = if s.keys.getLsbD ((s.reg x).toNat % 16) then s.pc + 2 else s.pc + 4 := by
  rw [State.skipIf_pc, State.npc_add_two, State.keyOf_eq, State.npc]
  cases s.keys.getLsbD ((s.reg x).toNat % 16) <;> rfl

/-- Settles O43: the two skips test the same key. -/
theorem keySkipsTestTheLowNibbleKey : Obligations.KeySkipsTestTheLowNibbleKey := fun x s =>
  ⟨EncodeDecode.skp x rfl, EncodeDecode.sknp x rfl,
    ⟨_, rfl, .of_skipIf s _, s.skipIf_keyOf_pc x⟩,
    ⟨_, rfl, .of_skipIf s _, s.skipIf_not_keyOf_pc x⟩⟩

/-! ### The wait for a key (R174) -/

/-- The rewind gives back the address of the instruction itself. -/
theorem State.npc_sub_two (s : State) : s.npc - 2 = s.pc := BitVec.add_sub_cancel s.pc 2

/-- Settles O44: the handler answers, and its two outcomes are told apart by whether a key is down. -/
theorem waitForKeyTakesTheLowestKey : Obligations.WaitForKeyTakesTheLowestKey := by
  refine fun x s => ⟨EncodeDecode.ldVxK x rfl, ?_⟩
  obtain ⟨t, ht⟩ := exec_answers (.ldVxK x) s
  obtain ⟨hup, rfl⟩ | ⟨k, hk, rfl⟩ := execLdVxK_cases ht
  · exact ⟨fun _ => ⟨_, ht, s.npc_sub_two, .of_setPC s _⟩, fun hdown => absurd hup hdown⟩
  · obtain ⟨hlt, hset, hleast⟩ := lowestKey_eq_some.1 hk
    refine ⟨fun hup => ?_, fun _ => ⟨_, k, ht, hlt, hset, hleast, ?_, rfl, .of_setReg s x _⟩⟩
    · exact absurd (hk.symm.trans (lowestKey_eq_none.2 hup)) (Option.some_ne_none k)
    · exact (congrArg BitVec.toNat (s.reg_setReg_same x _)).trans (Nat.mod_eq_of_lt (by omega))

/-! ### Timer moves (R173, R175, R176) -/

/-- Settles O46: the read is one register write, the other two are one write of a timer each. -/
theorem timerMoves : Obligations.TimerMoves := fun x s =>
  ⟨EncodeDecode.ldVxDT x rfl, EncodeDecode.ldDTVx x rfl, EncodeDecode.ldSTVx x rfl,
    ⟨_, rfl, s.reg_setReg_same x s.dt, rfl, .of_setReg s x _⟩,
    ⟨_, rfl, rfl, rfl, .of_setPC (s.setDT (s.reg x)) _⟩,
    ⟨_, rfl, rfl, rfl, .of_setPC (s.setST (s.reg x)) _⟩⟩

end Sys2Proof.Machine
end

section
/-! PROOFS. The statements of `60_exceptions.md`: the causes of `OutOfBoundsMemory` (R181), `StackOverflow`
(R182) and `StackUnderflow` (R183). -/

namespace Sys2Proof.Machine

/-! ### The fatal condition a handler raises -/

/-- What the handler of an instruction leaves in `FAULT` of a running core: R181 (b) to (e), R182, R183. -/
def raisedFault (i : Instr) (s : State) : FaultCode :=
  match i with
  | .ret => if s.sp.val = 0 then .stackUnderflow else .none
  | .call _ => if s.sp.val = 16 then .stackOverflow else .none
  | .drw _ _ n => if 0 < n.toNat ∧ 0xFFF < s.i.toNat + n.toNat - 1 then .outOfBoundsMemory else .none
  | .ldB _ => if 0xFFF < s.i.toNat + 2 then .outOfBoundsMemory else .none
  | .storeRegs x | .loadRegs x => if 0xFFF < s.i.toNat + x.toNat then .outOfBoundsMemory else .none
  | _ => .none

/-- A handler with two outcomes, the fault `c` under `p` and an answer that leaves the latch clear. -/
theorem fault_eq_ite {p : Prop} [Decidable p] {c : FaultCode} {t : State}
    (h : (p ∧ t.fault = c) ∨ (¬ p ∧ t.fault = .none)) : t.fault = if p then c else .none := by
  obtain ⟨hp, ht⟩ | ⟨hp, ht⟩ := h
  · rw [ht, if_pos hp]
  · rw [ht, if_neg hp]

/-- A block store raises `OutOfBoundsMemory` exactly when its last address `I + k` does not exist (R150). -/
theorem storeBlock_fault {bs : List Byte} {s t : State} {k : Nat} (hk : bs.length = k + 1)
    (hf : s.fault = .none) (h : storeBlock bs s = .next t) :
    t.fault = if 0xFFF < s.i.toNat + k then .outOfBoundsMemory else .none := by
  have hbase : s.blockBase = s.i.toNat := rfl
  refine fault_eq_ite ?_
  obtain ⟨hout, rfl⟩ | ⟨hin, rfl⟩ := storeBlock_cases (by omega) h
  · exact .inl ⟨by omega, rfl⟩
  · exact .inr ⟨by omega, hf⟩

/-- `raisedFault` is what `exec` does to the latch of a running core. -/
theorem exec_fault {i : Instr} {s t : State} (hf : s.fault = .none) (h : exec i s = .next t) :
    t.fault = raisedFault i s := by
  have hbase : s.blockBase = s.i.toNat := rfl
  cases i with
  | ret =>
    refine fault_eq_ite ?_
    obtain ⟨hempty, rfl⟩ | ⟨hpos, -, rfl⟩ := execRet_cases h
    · exact .inl ⟨hempty, rfl⟩
    · exact .inr ⟨by omega, hf⟩
  | call nnn =>
    refine fault_eq_ite ?_
    obtain ⟨hfull, rfl⟩ | ⟨hlt, rfl⟩ := execCall_cases h
    · exact .inl ⟨hfull, rfl⟩
    · exact .inr ⟨by omega, hf⟩
  | drw x y n =>
    refine fault_eq_ite ?_
    obtain ⟨hn, hout, rfl⟩ | ⟨hin, _, -, rfl⟩ := execDrw_cases h
    · exact .inl ⟨by omega, rfl⟩
    · exact .inr ⟨by omega, hf⟩
  | ldB x => exact storeBlock_fault rfl hf h
  | storeRegs x => exact storeBlock_fault (s.regsUpTo_length x) hf h
  | loadRegs x =>
    refine fault_eq_ite ?_
    obtain ⟨hout, rfl⟩ | ⟨hin, rfl⟩ := execLoadRegs_cases h
    · exact .inl ⟨hout, rfl⟩
    · exact .inr ⟨by omega, hf⟩
  | ldVxK x => obtain ⟨-, rfl⟩ | ⟨_, -, rfl⟩ := execLdVxK_cases h <;> exact hf
  | _ =>
    obtain rfl := Host.Outcome.next.inj h
    exact hf

/-- A cycle of a running core ends with the fetch fault, or with what the handler of its word raised. -/
theorem step_fault {s t : State} (hf : s.fault = .none) (h : step s = .next t) :
    (s.fetch = none ∧ t.fault = .outOfBoundsMemory) ∨
    ∃ ir, s.fetch = some ir ∧ t.fault = raisedFault (decode ir) s := by
  obtain ⟨hs, -⟩ | ⟨-, hpc, rfl⟩ | ⟨-, ir, u, hir, he, hu⟩ := step_cases h
  · exact absurd hf hs
  · exact .inl ⟨State.fetch_of_lt hpc, rfl⟩
  · have hraised : u.fault = raisedFault (decode ir) s := exec_fault (s := s.clearReport) hf he
    obtain ⟨-, rfl⟩ | ⟨-, rfl⟩ := hu
    · exact .inr ⟨ir, hir, u.endCycle_fault.trans hraised⟩
    · exact .inr ⟨ir, hir, hraised⟩

/-- A core that fetched nothing executes nothing. -/
theorem not_executes_of_fetch_eq_none {s : State} (h : s.fetch = none) (i : Instr) : ¬ Executes s i := by
  simp [Executes, h]

/-! ### The causes of each fatal condition (R181 to R183) -/

theorem raisedFault_eq_outOfBoundsMemory {i : Instr} {s : State} :
    raisedFault i s = .outOfBoundsMemory ↔
      (∃ x y n, i = .drw x y n ∧ 0 < n.toNat ∧ 0xFFF < s.i.toNat + n.toNat - 1) ∨
      (∃ x, i = .ldB x ∧ 0xFFF < s.i.toNat + 2) ∨
      (∃ x, i = .storeRegs x ∧ 0xFFF < s.i.toNat + x.toNat) ∨
      (∃ x, i = .loadRegs x ∧ 0xFFF < s.i.toNat + x.toNat) := by
  cases i with
  | drw x y n =>
    simp [raisedFault]
    omega
  | ldB x =>
    simp [raisedFault]
    omega
  | _ => simp [raisedFault, ite_eq_iff]

theorem raisedFault_eq_stackOverflow {i : Instr} {s : State} :
    raisedFault i s = .stackOverflow ↔ (∃ nnn, i = .call nnn) ∧ s.sp.val = 16 := by
  cases i <;> simp [raisedFault, ite_eq_iff]

theorem raisedFault_eq_stackUnderflow {i : Instr} {s : State} :
    raisedFault i s = .stackUnderflow ↔ i = .ret ∧ s.sp.val = 0 := by
  cases i <;> simp [raisedFault, ite_eq_iff]

/-- Settles O13: the first cause is the fetch's, the other four are the handlers'. -/
theorem outOfBoundsMemoryHasExactlyFiveCauses : Obligations.OutOfBoundsMemoryHasExactlyFiveCauses := by
  intro s t hf h
  obtain ⟨hir, ht⟩ | ⟨ir, hir, ht⟩ := step_fault hf h
  · exact iff_of_true ht (.inl (State.fetch_eq_none.1 hir))
  · have hpc : ¬ 0xFFE < s.pc.toNat := Nat.not_lt.2 (State.pc_of_fetch hir)
    simp only [executes_iff hir, ht, raisedFault_eq_outOfBoundsMemory, hpc, false_or]

/-- Settles O14: a fetch fault is no stack fault and executes nothing, and each stack fault has one handler. -/
theorem stackFaultsHaveExactlyOneCauseEach : Obligations.StackFaultsHaveExactlyOneCauseEach := by
  intro s t hf h
  obtain ⟨hir, ht⟩ | ⟨ir, hir, ht⟩ := step_fault hf h
  · simp [not_executes_of_fetch_eq_none hir, ht]
  · simp only [executes_iff hir, ht]
    exact ⟨raisedFault_eq_stackOverflow, raisedFault_eq_stackUnderflow⟩

end Sys2Proof.Machine
end

section
/-! PROOFS. The statements of `30_encoding.md` about encoding and the opcode table: the words of the vectors,
decode of encode (R85, R88), the rows and their masks (R88). -/

namespace Sys2Proof

open Sys2Proof.Laws

/-! ### Decode of encode (R85, R88) -/

theorem decode_encode : (i : Instr) → EncodeDecode.Statement i
  | .cls => EncodeDecode.cls
  | .ret => EncodeDecode.ret
  | .jp nnn => EncodeDecode.jp nnn
  | .call nnn => EncodeDecode.call nnn
  | .seImm x nn => EncodeDecode.seImm x nn
  | .sneImm x nn => EncodeDecode.sneImm x nn
  | .seReg x y => EncodeDecode.seReg x y
  | .ldImm x nn => EncodeDecode.ldImm x nn
  | .addImm x nn => EncodeDecode.addImm x nn
  | .ldReg x y => EncodeDecode.ldReg x y
  | .orReg x y => EncodeDecode.orReg x y
  | .andReg x y => EncodeDecode.andReg x y
  | .xorReg x y => EncodeDecode.xorReg x y
  | .addReg x y => EncodeDecode.addReg x y
  | .subReg x y => EncodeDecode.subReg x y
  | .shr x => EncodeDecode.shr x
  | .subnReg x y => EncodeDecode.subnReg x y
  | .shl x => EncodeDecode.shl x
  | .sneReg x y => EncodeDecode.sneReg x y
  | .ldI nnn => EncodeDecode.ldI nnn
  | .jpV0 nnn => EncodeDecode.jpV0 nnn
  | .rnd x nn => EncodeDecode.rnd x nn
  | .drw x y n => EncodeDecode.drw x y n
  | .skp x => EncodeDecode.skp x
  | .sknp x => EncodeDecode.sknp x
  | .ldVxDT x => EncodeDecode.ldVxDT x
  | .ldVxK x => EncodeDecode.ldVxK x
  | .ldDTVx x => EncodeDecode.ldDTVx x
  | .ldSTVx x => EncodeDecode.ldSTVx x
  | .addI x => EncodeDecode.addI x
  | .ldF x => EncodeDecode.ldF x
  | .ldB x => EncodeDecode.ldB x
  | .storeRegs x => EncodeDecode.storeRegs x
  | .loadRegs x => EncodeDecode.loadRegs x
  | .unknown ir => EncodeDecode.unknown ir

/-- The two bytes of an instruction, in front of any others, decode as its word does (R56). -/
theorem decodeBytes_encodeBytes (i : Instr) (rest : List Byte) :
    decodeBytes (encodeBytes i ++ rest) = .ok (decode (encode i), rest) :=
  (decodeBytes_cons _ _ rest).trans (by rw [wordOfBytes_hi_lo])

/-- Settles O6: `decode_encode` on the word, and the bytes are the word's. -/
theorem decodeOfEncodeIsTheInstruction : Obligations.DecodeOfEncodeIsTheInstruction := by
  intro i rest hwf
  have hword := decode_encode i hwf
  exact ⟨hword, (decodeBytes_encodeBytes i rest).trans (by rw [hword])⟩

/-- Settles O5: the decoder evaluates on each of the eighteen words. -/
theorem vectorWordsDecodeAsListed : Obligations.VectorWordsDecodeAsListed := by
  unfold Obligations.VectorWordsDecodeAsListed
  decide

/-! ### Masks and fields (R82, R88) -/

theorem and_FFFF (w : Word) : w &&& 0xFFFF = w := BitVec.and_allOnes

theorem opField_and_of_mask (w : Word) {mask : Word} (h : opField mask = BitVec.allOnes 4) :
    opField (w &&& mask) = opField w :=
  BitVec.extractLsb'_and.trans ((congrArg (opField w &&& ·) h).trans BitVec.and_allOnes)

theorem nField_and_of_mask (w : Word) {mask : Word} (h : nField mask = BitVec.allOnes 4) :
    nField (w &&& mask) = nField w :=
  BitVec.extractLsb'_and.trans ((congrArg (nField w &&& ·) h).trans BitVec.and_allOnes)

theorem nnField_and_of_mask (w : Word) {mask : Word} (h : nnField mask = BitVec.allOnes 8) :
    nnField (w &&& mask) = nnField w :=
  BitVec.extractLsb'_and.trans ((congrArg (nnField w &&& ·) h).trans BitVec.and_allOnes)

/-! A word that agrees with a row's pattern in the fields that the row's mask examines (R88). -/

section
variable {w pattern : Word} (hop : (opField w).toNat = (opField pattern).toNat)
include hop

theorem and_F000_of_fields (hp : encNNN (opField pattern) 0 = pattern) : w &&& 0xF000 = pattern := by
  refine Eq.trans ?_ hp
  rw [← encNNN_of_fields hop]
  refine (BitVec.and_append (x₂ := BitVec.allOnes 4) (y₂ := 0#12)).trans ?_
  rw [BitVec.and_allOnes, BitVec.and_zero]
  rfl

theorem and_F00F_of_fields (hn : (nField w).toNat = (nField pattern).toNat)
    (hp : encXYN (opField pattern) 0 0 (nField pattern) = pattern) : w &&& 0xF00F = pattern := by
  refine Eq.trans ?_ hp
  rw [← encXYN_of_fields hop hn]
  refine (BitVec.and_append (x₂ := BitVec.allOnes 4 ++ 0#4 ++ 0#4) (y₂ := BitVec.allOnes 4)).trans ?_
  rw [BitVec.and_append, BitVec.and_append, BitVec.and_allOnes, BitVec.and_allOnes, BitVec.and_zero,
    BitVec.and_zero]
  rfl

theorem and_F0FF_of_fields (hnn : (nnField w).toNat = (nnField pattern).toNat)
    (hp : encXNN (opField pattern) 0 (nnField pattern) = pattern) : w &&& 0xF0FF = pattern := by
  refine Eq.trans ?_ hp
  rw [← encXNN_of_fields hop hnn]
  refine (BitVec.and_append (x₂ := BitVec.allOnes 4 ++ 0#4) (y₂ := BitVec.allOnes 8)).trans ?_
  rw [BitVec.and_append, BitVec.and_allOnes, BitVec.and_allOnes, BitVec.and_zero]
  rfl

end

/-! ### The row of a decoded instruction (R88) -/

/-- The instruction is `UNKNOWN` for the word, or the word matches the instruction's row. -/
def FitsRow (w : Word) (i : Instr) : Prop :=
  i = .unknown w ∨ ∃ r, opcodeRows[i.row]? = some r ∧ w &&& r.mask = r.pattern

theorem fitsRow_decode0 (w : Word) : FitsRow w (decode0 w) := by
  unfold decode0
  split_ifs with hcls hret
  · exact .inr ⟨_, rfl, by subst hcls; rfl⟩
  · exact .inr ⟨_, rfl, by subst hret; rfl⟩
  · exact .inl rfl

theorem fitsRow_decode8 {w : Word} (hop : (opField w).toNat = 0x8) : FitsRow w (decode8 w) := by
  unfold decode8
  split
  case h_10 => exact .inl rfl
  all_goals exact .inr ⟨_, rfl, and_F00F_of_fields hop ‹_› rfl⟩

theorem fitsRow_decodeE {w : Word} (hop : (opField w).toNat = 0xE) : FitsRow w (decodeE w) := by
  unfold decodeE
  split
  case h_3 => exact .inl rfl
  all_goals exact .inr ⟨_, rfl, and_F0FF_of_fields hop ‹_› rfl⟩

theorem fitsRow_decodeF {w : Word} (hop : (opField w).toNat = 0xF) : FitsRow w (decodeF w) := by
  unfold decodeF
  split
  case h_10 => exact .inl rfl
  all_goals exact .inr ⟨_, rfl, and_F0FF_of_fields hop ‹_› rfl⟩

theorem fitsRow_decode (w : Word) : FitsRow w (decode w) := by
  unfold decode
  split
  case h_1 => exact fitsRow_decode0 w
  case h_9 hop => exact fitsRow_decode8 hop
  case h_15 hop => exact fitsRow_decodeE hop
  case h_16 =>
    have hlt := (opField w).isLt
    simp only [imp_false] at *
    exact fitsRow_decodeF (by omega)
  all_goals exact .inr ⟨_, rfl, and_F000_of_fields ‹_› rfl⟩

/-! ### Recognised words (R86) -/

section
variable {w : Word}

theorem recognised_of_opField (hop : (opField w).toNat ∉ [0x0, 0x8, 0xE, 0xF]) : recognised w = true := by
  unfold recognised
  split <;> simp_all [opField]

theorem recognised_of_nField (hop : (opField w).toNat = 0x8)
    (hn : (nField w).toNat ∈ [0x0, 0x1, 0x2, 0x3, 0x4, 0x5, 0x6, 0x7, 0xE]) : recognised w = true := by
  have hop : (w.extractLsb' 12 4).toNat = 0x8 := hop
  simp only [recognised, hop]
  exact decide_eq_true hn

theorem recognised_of_nnField_E (hop : (opField w).toNat = 0xE) (hnn : (nnField w).toNat ∈ [0x9E, 0xA1]) :
    recognised w = true := by
  have hop : (w.extractLsb' 12 4).toNat = 0xE := hop
  simp only [recognised, hop]
  exact decide_eq_true hnn

theorem recognised_of_nnField_F (hop : (opField w).toNat = 0xF)
    (hnn : (nnField w).toNat ∈ [0x07, 0x0A, 0x15, 0x18, 0x1E, 0x29, 0x33, 0x55, 0x65]) :
    recognised w = true := by
  have hop : (w.extractLsb' 12 4).toNat = 0xF := hop
  simp only [recognised, hop]
  exact decide_eq_true hnn

end

/-- A row's mask examines the fields of R86, and its pattern has a key of R86's table there. -/
def OpcodeRow.Keyed (r : OpcodeRow) : Prop :=
  (r.mask = 0xFFFF ∧ recognised r.pattern = true) ∨
  (r.mask = 0xF000 ∧ (opField r.pattern).toNat ∉ [0x0, 0x8, 0xE, 0xF]) ∨
  (r.mask = 0xF00F ∧ (opField r.pattern).toNat = 0x8 ∧
    (nField r.pattern).toNat ∈ [0x0, 0x1, 0x2, 0x3, 0x4, 0x5, 0x6, 0x7, 0xE]) ∨
  (r.mask = 0xF0FF ∧ (opField r.pattern).toNat = 0xE ∧ (nnField r.pattern).toNat ∈ [0x9E, 0xA1]) ∨
  (r.mask = 0xF0FF ∧ (opField r.pattern).toNat = 0xF ∧
    (nnField r.pattern).toNat ∈ [0x07, 0x0A, 0x15, 0x18, 0x1E, 0x29, 0x33, 0x55, 0x65])

theorem opcodeRows_keyed : ∀ r ∈ opcodeRows, r.Keyed := by
  unfold OpcodeRow.Keyed
  decide

/-- A word that matches a row has the row's key, so R86 recognises it. -/
theorem recognised_of_matches {w : Word} {r : OpcodeRow} (hr : r ∈ opcodeRows)
    (h : w &&& r.mask = r.pattern) : recognised w = true := by
  have hkey := opcodeRows_keyed r hr
  unfold OpcodeRow.Keyed at hkey
  rw [← h] at hkey
  obtain ⟨hm, hrec⟩ | ⟨hm, hop⟩ | ⟨hm, hop, hn⟩ | ⟨hm, hop, hnn⟩ | ⟨hm, hop, hnn⟩ := hkey
  · rwa [hm, and_FFFF] at hrec
  · rw [hm, opField_and_of_mask w rfl] at hop
    exact recognised_of_opField hop
  · rw [hm, opField_and_of_mask w rfl] at hop
    rw [hm, nField_and_of_mask w rfl] at hn
    exact recognised_of_nField hop hn
  · rw [hm, opField_and_of_mask w rfl] at hop
    rw [hm, nnField_and_of_mask w rfl] at hnn
    exact recognised_of_nnField_E hop hnn
  · rw [hm, opField_and_of_mask w rfl] at hop
    rw [hm, nnField_and_of_mask w rfl] at hnn
    exact recognised_of_nnField_F hop hnn

/-- The patterns of two rows differ on a bit that both masks examine. -/
theorem opcodeRows_differ :
    opcodeRows.Pairwise fun p q => p.pattern &&& q.mask ≠ q.pattern &&& p.mask := by
  decide

theorem opcodeRows_disjoint : opcodeRows.Pairwise fun p q => ∀ w : Word,
    ¬ (w &&& p.mask = p.pattern ∧ w &&& q.mask = q.pattern) := by
  refine opcodeRows_differ.imp fun hne w hw => hne ?_
  rw [← hw.1, ← hw.2]
  ac_rfl

/-- A word that matches a row of the table selects it: no row before it matches. -/
theorem rowOfWord_eq {w : Word} {k : Nat} {r : OpcodeRow} (hk : opcodeRows[k]? = some r)
    (h : w &&& r.mask = r.pattern) : rowOfWord w = k := by
  obtain ⟨hlt, rfl⟩ := List.getElem?_eq_some_iff.1 hk
  refine (List.findIdx_eq hlt).2 ⟨decide_eq_true h, fun j hj => decide_eq_false fun h' => ?_⟩
  exact List.pairwise_iff_getElem.1 opcodeRows_disjoint j k _ hlt hj w ⟨h', h⟩

theorem rowOfWord_of_not_recognised {w : Word} (h : recognised w = false) : rowOfWord w = 34 := by
  refine List.findIdx_eq_length.2 fun r hr => decide_eq_false fun hm => ?_
  rw [recognised_of_matches hr hm] at h
  cases h

/-- Settles O7: the word of an instruction of the table fits that instruction's row and, the rows being
disjoint, no other; an unknown word fits none. -/
theorem decodeFollowsTheOpcodeTable : Obligations.DecodeFollowsTheOpcodeTable := by
  refine ⟨fun w => ?_, opcodeRows_disjoint⟩
  obtain hunk | ⟨r, hr, hm⟩ := fitsRow_decode w
  · rw [hunk, rowOfWord_of_not_recognised (decode_eq_unknown_iff.1 hunk).2]
    rfl
  · exact (rowOfWord_eq hr hm).symm

end Sys2Proof
end

section
/-! PROOFS. What a handler can do to the state, said once for all instructions, and the statements that follow
part by part: the writers of each part (R33, R58, R27, R185), the latch (R28), the configuration. -/

namespace Sys2Proof

/-! ### The writers of the parts of the state -/

/-- The instructions that may leave `PC` elsewhere than at the next word (`41_control_flow.md` R120, R174). -/
def Instr.LeavesSequence (i : Instr) : Prop :=
  i = .ret ∨ (∃ nnn, i = .jp nnn ∨ i = .call nnn ∨ i = .jpV0 nnn) ∨
    (∃ x nn, i = .seImm x nn ∨ i = .sneImm x nn) ∨ (∃ x y, i = .seReg x y ∨ i = .sneReg x y) ∨
    ∃ x, i = .skp x ∨ i = .sknp x ∨ i = .ldVxK x

/-- The instructions that write `I` (R152 to R154). -/
def Instr.WritesIndex (i : Instr) : Prop := (∃ nnn, i = .ldI nnn) ∨ (∃ x, i = .addI x) ∨ ∃ x, i = .ldF x

/-- The instructions that write memory (R155, R156). -/
def Instr.WritesMemory (i : Instr) : Prop := (∃ x, i = .ldB x) ∨ ∃ x, i = .storeRegs x

/-- The instructions that write the framebuffer (R161, R162). -/
def Instr.WritesDisplay (i : Instr) : Prop := i = .cls ∨ ∃ x y n, i = .drw x y n

end Sys2Proof

namespace Sys2Proof.Machine

/-! ### The effect of a handler -/

/-- All that the handler of an instruction can leave of the state `s`, one kind of change each. -/
inductive Effect (s : State) : Instr → State → Prop
  | fault {i c} (hc : c ≠ .none) : Effect s i (s.latch c)
  | jump {i} (p : Word) (hi : i.LeavesSequence) (hp : s.pc.toNat ≤ 0xFFE → p.toNat ≤ 0x10FE) :
      Effect s i (s.setPC p)
  | pop (hpos : 0 < s.sp.val) (hlt : s.sp.val - 1 < 16) :
      Effect s .ret
        (({ s with sp := ⟨s.sp.val - 1, Nat.lt_succ_of_lt hlt⟩ } : State).setPC s.stack[s.sp.val - 1])
  | push (nnn : Addr12) (hlt : s.sp.val < 16) :
      Effect s (.call nnn)
        (({ s with stack := s.stack.set s.sp.val s.npc hlt,
                   sp := ⟨s.sp.val + 1, Nat.succ_lt_succ hlt⟩ } : State).setPC (addrOperand nnn))
  | regs {i} (v : Vector Byte 16) : Effect s i ({ s with v := v } : State).advance
  | random (x : RegId) (nn : Byte) (v : Vector Byte 16) :
      Effect s (.rnd x nn) ({ s.countDraw with v := v } : State).advance
  | index {i} (w : Word) (hi : i.WritesIndex) (hw : w.toNat ≤ 0xFFF) : Effect s i (s.setI w).advance
  | store {i} (bs : List Byte) (hi : i.WritesMemory) (hin : s.blockBase + bs.length ≤ 0x1000) :
      Effect s i (s.setMem (s.mem.pokeList s.blockBase bs)).advance
  | display {i} (f : Vector (BitVec 64) 32) (v : Vector Byte 16) (hi : i.WritesDisplay) :
      Effect s i ({ s.setFB f with v := v } : State).advance
  | delay (x : RegId) : Effect s (.ldDTVx x) (s.setDT (s.reg x)).advance
  | sound (x : RegId) : Effect s (.ldSTVx x) (s.setST (s.reg x)).advance
  | report (ir : Word) : Effect s (.unknown ir) (s.report ir).advance

theorem toNat_addrOperand_le (nnn : Addr12) : (addrOperand nnn).toNat ≤ 0xFFF := by
  have hlt := nnn.isLt
  rw [toNat_addrOperand]
  omega

theorem State.toNat_npc {s : State} (h : s.pc.toNat ≤ 0xFFE) : s.npc.toNat = s.pc.toNat + 2 :=
  BitVec.toNat_add_of_lt (show s.pc.toNat + 2 < 2 ^ 16 by omega)

theorem toNat_and_0x0FFF_le (w : Word) : (w &&& 0x0FFF).toNat ≤ 0xFFF := by
  rw [toNat_and_0x0FFF]
  omega

/-- A skip lands at most two words past the instruction. -/
theorem Effect.skip {s : State} {i : Instr} (c : Bool) (hi : i.LeavesSequence) : Effect s i (s.skipIf c) := by
  refine .jump _ hi fun hpc => ?_
  have hnpc := State.toNat_npc hpc
  have hskip : (s.npc + 2).toNat = s.npc.toNat + 2 :=
    BitVec.toNat_add_of_lt (show s.npc.toNat + 2 < 2 ^ 16 by omega)
  split
  · omega
  · omega

theorem Effect.of_storeBlock {s t : State} {i : Instr} {bs : List Byte} (hn : 0 < bs.length)
    (hi : i.WritesMemory) (h : storeBlock bs s = .next t) : Effect s i t := by
  obtain ⟨-, rfl⟩ | ⟨hin, rfl⟩ := storeBlock_cases hn h
  · exact .fault (by decide)
  · exact .store bs hi hin

theorem exec_effect {i : Instr} {s t : State} (h : exec i s = .next t) : Effect s i t := by
  cases i with
  | ret =>
    obtain ⟨-, rfl⟩ | ⟨hpos, hlt, rfl⟩ := execRet_cases h
    · exact .fault (by decide)
    · exact .pop hpos hlt
  | call nnn =>
    obtain ⟨-, rfl⟩ | ⟨hlt, rfl⟩ := execCall_cases h
    · exact .fault (by decide)
    · exact .push nnn hlt
  | drw x y n =>
    obtain ⟨-, -, rfl⟩ | ⟨-, cv, -, rfl⟩ := execDrw_cases h
    · exact .fault (by decide)
    · exact .display cv.fb _ (.inr ⟨x, y, n, rfl⟩)
  | ldVxK x =>
    obtain ⟨-, rfl⟩ | ⟨k, -, rfl⟩ := execLdVxK_cases h
    · refine Effect.jump _ (by simp [Instr.LeavesSequence]) fun hpc => ?_
      rw [State.npc_sub_two]
      omega
    · exact .regs _
  | ldB x => exact .of_storeBlock (by simp [bcdDigits]) (.inl ⟨x, rfl⟩) h
  | storeRegs x => exact .of_storeBlock (by simp) (.inr ⟨x, rfl⟩) h
  | loadRegs x =>
    obtain ⟨-, rfl⟩ | ⟨-, rfl⟩ := execLoadRegs_cases h
    · exact .fault (by decide)
    · exact .regs _
  | jp nnn =>
    obtain rfl := Host.Outcome.next.inj h
    have := toNat_addrOperand_le nnn
    exact .jump _ (by simp [Instr.LeavesSequence]) fun _ => by omega
  | jpV0 nnn =>
    obtain rfl := Host.Outcome.next.inj h
    have := nnn.isLt
    have := (s.reg V0).isLt
    have := toNat_addrOperand_add_regWord nnn s V0
    exact .jump _ (by simp [Instr.LeavesSequence]) fun _ => by omega
  | seImm | sneImm | seReg | sneReg | skp | sknp =>
    obtain rfl := Host.Outcome.next.inj h
    exact .skip _ (by simp [Instr.LeavesSequence])
  | ldI nnn =>
    obtain rfl := Host.Outcome.next.inj h
    exact .index _ (.inl ⟨nnn, rfl⟩) (toNat_addrOperand_le nnn)
  | addI x =>
    obtain rfl := Host.Outcome.next.inj h
    exact .index _ (.inr (.inl ⟨x, rfl⟩)) (toNat_and_0x0FFF_le _)
  | ldF x =>
    obtain rfl := Host.Outcome.next.inj h
    exact .index _ (.inr (.inr ⟨x, rfl⟩)) (toNat_and_0x0FFF_le _)
  | cls =>
    obtain rfl := Host.Outcome.next.inj h
    exact .display (s := s) (Vector.replicate 32 0) s.v (.inl rfl)
  | rnd x nn =>
    obtain rfl := Host.Outcome.next.inj h
    exact .random x nn _
  | ldDTVx x =>
    obtain rfl := Host.Outcome.next.inj h
    exact .delay x
  | ldSTVx x =>
    obtain rfl := Host.Outcome.next.inj h
    exact .sound x
  | unknown ir =>
    obtain rfl := Host.Outcome.next.inj h
    exact .report ir
  | ldImm | addImm | ldReg | orReg | andReg | xorReg | addReg | subReg | shr | subnReg | shl | ldVxDT =>
    obtain rfl := Host.Outcome.next.inj h
    exact .regs _

/-! ### The writers of each part -/

section
variable {i : Instr} {s t : State} (h : exec i s = .next t)
include h

theorem exec_index : t.i = s.i ∨ i.WritesIndex := by
  cases exec_effect h with
  | index w hi hw => exact .inr hi
  | _ => exact .inl rfl

theorem exec_stack : SameStack s t ∨ i = .ret ∨ ∃ nnn, i = .call nnn := by
  cases exec_effect h with
  | pop => exact .inr (.inl rfl)
  | push nnn => exact .inr (.inr ⟨nnn, rfl⟩)
  | _ => exact .inl ⟨rfl, rfl⟩

theorem exec_memory : t.mem = s.mem ∨ i.WritesMemory := by
  cases exec_effect h with
  | store bs hi hin => exact .inr hi
  | _ => exact .inl rfl

theorem exec_display : t.fb = s.fb ∨ i.WritesDisplay := by
  cases exec_effect h with
  | display f v hi => exact .inr hi
  | _ => exact .inl rfl

theorem exec_report : t.unknownIr = s.unknownIr ∨ ∃ ir, i = .unknown ir := by
  cases exec_effect h with
  | report ir => exact .inr ⟨ir, rfl⟩
  | _ => exact .inl rfl

theorem exec_draws : t.rndDraws = s.rndDraws ∨ ∃ x nn, i = .rnd x nn := by
  cases exec_effect h with
  | random x nn => exact .inr ⟨x, nn, rfl⟩
  | _ => exact .inl rfl

theorem exec_pc : t.pc = s.pc + 2 ∨ t.fault ≠ .none ∨ i.LeavesSequence := by
  cases exec_effect h with
  | fault hc => exact .inr (.inl hc)
  | jump p hi => exact .inr (.inr hi)
  | pop => exact .inr (.inr (by simp [Instr.LeavesSequence]))
  | push nnn => exact .inr (.inr (by simp [Instr.LeavesSequence]))
  | _ => exact .inl rfl

theorem exec_inputs : SameInputs s t := by
  cases exec_effect h <;> exact ⟨rfl, rfl⟩

theorem exec_config : SameConfig s t := by
  cases exec_effect h with
  | store bs => exact Memory.pokeList_glyphs bs s.mem s.blockBase
  | _ => rfl

end

/-- Settles O48: each clause is the lemma of its part. -/
theorem eachPartHasOnlyItsWriters : Obligations.EachPartHasOnlyItsWriters := by
  intro i s t h
  obtain ⟨hdt, hst⟩ := exec_timers h
  refine ⟨(exec_index h).resolve_left, (exec_stack h).resolve_left, hdt.resolve_left, hst.resolve_left,
    fun hne => (exec_memory h).resolve_left fun he => hne fun a => by rw [he],
    fun hne => (exec_display h).resolve_left fun he => hne fun c r _ _ => congrArg (pixelOf · c r) he,
    (exec_report h).resolve_left, (exec_draws h).resolve_left,
    fun hne _ ht => ((exec_pc h).resolve_left hne).resolve_left fun hf => hf ht⟩

end Sys2Proof.Machine
end

section
/-! PROOFS. The invariant of `10_state.md` R34: it holds at launch and every step keeps it. -/

namespace Sys2Proof.Machine

theorem inv_resetWith (g : GlyphTable) : Inv (State.resetWith g) :=
  ⟨Nat.zero_le _, show 0x200 ≤ 0x10FE by decide, fun _ _ hlive => absurd hlive (Nat.not_lt_zero _), rfl⟩

/-- The invariant does not speak of the timers, the latch, the fault or the diagnostic, and of memory it asks
the canonical form alone. -/
theorem Inv.congr {s t : State} (h : Inv s) (hi : t.i = s.i) (hpc : t.pc = s.pc) (hst : SameStack s t)
    (hm : t.mem.wf = true) : Inv t := by
  obtain ⟨hsp, hstack⟩ := hst
  refine ⟨by rw [hi]; exact h.index_masked, by rw [hpc]; exact h.pc_bounded, ?_, hm⟩
  rw [hsp, hstack]
  exact h.live_entries

/-- Settles O50: a launch is a reset and a block write inside memory. -/
theorem launchStatesMeetTheInvariant : Obligations.LaunchStatesMeetTheInvariant := by
  refine ⟨inv_resetWith _, fun g => ⟨inv_resetWith g, fun image t h => ?_⟩⟩
  rcases Nat.lt_or_ge 0xE00 image.length with hlen | hlen
  · rw [launch, State.loadProgram_of_lt _ hlen] at h
    cases h
  · rw [launch, State.loadProgram_of_le _ hlen] at h
    obtain rfl := Except.ok.inj h
    exact (inv_resetWith g).congr rfl rfl ⟨rfl, rfl⟩ (Memory.wf_pokeList rfl (.inr (by omega)))

/-- The live entries after a push: those before it and the return address. -/
theorem live_entries_push {s : State} (h : Inv s) (hpc : s.pc.toNat ≤ 0xFFE) (hlt : s.sp.val < 16) {k : Nat}
    (hk : k < 16) (hlive : k < s.sp.val + 1) :
    0x002 ≤ (s.stack.set s.sp.val s.npc hlt)[k].toNat ∧
      (s.stack.set s.sp.val s.npc hlt)[k].toNat ≤ 0x1000 := by
  have hnpc := State.toNat_npc hpc
  rw [Vector.getElem_set]
  split
  · omega
  · exact h.live_entries k hk (by omega)

/-- A handler run on a fetched word keeps the invariant. -/
theorem Inv.exec {i : Instr} {s t : State} (h : Inv s) (hpc : s.pc.toNat ≤ 0xFFE) (he : exec i s = .next t) :
    Inv t := by
  have hnpc := State.toNat_npc hpc
  have hadvance : s.npc.toNat ≤ 0x10FE := by omega
  have ⟨hindex, hbound, hlive, hmem⟩ := h
  cases exec_effect he with
  | fault => exact ⟨hindex, hbound, hlive, hmem⟩
  | jump p _ hp => exact ⟨hindex, hp hpc, hlive, hmem⟩
  | pop hpos hlt =>
    obtain ⟨-, htop⟩ := hlive _ hlt (by omega)
    exact ⟨hindex, show s.stack[s.sp.val - 1].toNat ≤ 0x10FE by omega,
      fun k hk hk' => hlive k hk (Nat.lt_of_lt_pred hk'), hmem⟩
  | push nnn hlt =>
    have := toNat_addrOperand_le nnn
    exact ⟨hindex, show (addrOperand nnn).toNat ≤ 0x10FE by omega,
      fun k hk hk' => live_entries_push h hpc hlt hk hk', hmem⟩
  | index w _ hw => exact ⟨hw, hadvance, hlive, hmem⟩
  | store bs _ hin => exact ⟨hindex, hadvance, hlive, Memory.wf_pokeList hmem (.inr hin)⟩
  | _ => exact ⟨hindex, hadvance, hlive, hmem⟩

/-- Settles O51: the handler keeps the invariant, and the rest of the cycle does not touch what it speaks of. -/
theorem stepKeepsInvariant : Obligations.StepKeepsInvariant := by
  intro s t h hstep
  have hlatch (c : FaultCode) : Inv (s.latch c) := h.congr rfl rfl ⟨rfl, rfl⟩ h.memory_canonical
  obtain ⟨-, rfl⟩ | ⟨-, -, rfl⟩ | ⟨-, ir, u, hir, he, ⟨-, rfl⟩ | ⟨-, rfl⟩⟩ := step_cases hstep
  · exact h
  · exact hlatch _
  · have hclear : Inv s.clearReport := h.congr rfl rfl ⟨rfl, rfl⟩ h.memory_canonical
    have hu := hclear.exec (State.pc_of_fetch hir) he
    rw [State.endCycle_eq]
    exact hu.congr rfl rfl ⟨rfl, rfl⟩ hu.memory_canonical
  · exact hlatch _

end Sys2Proof.Machine
end

section
/-! PROOFS. The two statements that a part of the state cannot be observed: the dead stack entries (R25, D19)
and the configured glyph table (R52, U11). Both say that a relation between two states is kept by a step. -/

namespace Sys2Proof.Machine

/-! ### Two machines in lockstep -/

/-- A relation between two states that every part of a cycle keeps, and that sees the latch and the fetch. -/
structure Lockstep (R : State → State → Prop) : Prop where
  fault {s s'} : R s s' → s'.fault = s.fault
  fetch {s s'} : R s s' → s'.fetch = s.fetch
  latch {s s'} (c : FaultCode) : R s s' → R (s.latch c) (s'.latch c)
  clearReport {s s'} : R s s' → R s.clearReport s'.clearReport
  endCycle {s s'} : R s s' → R s.endCycle s'.endCycle
  exec {s s' t t'} (i : Instr) : R s s' → exec i s = .next t → exec i s' = .next t' → R t t'

/-- Related states halt, fault at the fetch, or run the same word together. -/
theorem Lockstep.step {R : State → State → Prop} (hR : Lockstep R) {s s' t t' : State} (h : R s s')
    (hs : step s = .next t) (hs' : step s' = .next t') : R t t' := by
  have hfault := hR.fault h
  by_cases hf : s.fault = .none
  · have hf' : s'.fault = .none := hfault.trans hf
    cases hir : s.fetch with
    | none =>
      have hir' := (hR.fetch h).trans hir
      rw [step_of_fetch_fault hf (State.fetch_eq_none.1 hir)] at hs
      rw [step_of_fetch_fault hf' (State.fetch_eq_none.1 hir')] at hs'
      obtain rfl := Host.Outcome.next.inj hs
      obtain rfl := Host.Outcome.next.inj hs'
      exact hR.latch _ h
    | some ir =>
      have hir' := (hR.fetch h).trans hir
      obtain ⟨u, hu⟩ := exec_answers (decode ir) s.clearReport
      obtain ⟨u', hu'⟩ := exec_answers (decode ir) s'.clearReport
      have hrel := hR.exec _ (hR.clearReport h) hu hu'
      rw [step_of_exec hf hir hu] at hs
      rw [step_of_exec hf' hir' hu', hR.fault hrel] at hs'
      split at hs
      case isTrue hok =>
        rw [if_pos hok] at hs'
        obtain rfl := Host.Outcome.next.inj hs
        obtain rfl := Host.Outcome.next.inj hs'
        exact hR.endCycle hrel
      case isFalse hbad =>
        rw [if_neg hbad] at hs'
        obtain rfl := Host.Outcome.next.inj hs
        obtain rfl := Host.Outcome.next.inj hs'
        exact hR.latch _ h
  · rw [step_of_halted hf] at hs
    rw [step_of_halted (hfault.trans_ne hf)] at hs'
    obtain rfl := Host.Outcome.next.inj hs
    obtain rfl := Host.Outcome.next.inj hs'
    exact h

/-! ### A state with other storage -/

/-- The state with the storage of the stack and the memory replaced; the depth is that of the state. -/
def State.withStorage (s : State) (k : Vector Word 16) (m : Memory) : State := { s with stack := k, mem := m }

/-- The live entries of the state, those below `SP`, stand in `k` too. -/
def State.LiveIn (s : State) (k : Vector Word 16) : Prop :=
  ∀ j (hj : j < 16), j < s.sp.val → k[j] = s.stack[j]

theorem State.withStorage_fetch (s : State) (k : Vector Word 16) {m : Memory}
    (hm : ∀ a, m.read? a = s.mem.read? a) : (s.withStorage k m).fetch = s.fetch := by
  have hmem : (s.withStorage k m).mem = m := rfl
  have hpc : (s.withStorage k m).pc = s.pc := rfl
  simp only [State.fetch, hmem, hpc, hm]

theorem State.withStorage_endCycle (s : State) (k : Vector Word 16) (m : Memory) :
    (s.withStorage k m).endCycle = s.endCycle.withStorage k m := by
  rw [State.endCycle_eq, State.endCycle_eq]
  rfl

section
variable {s t : State} {k : Vector Word 16} {m : Memory}

/-- `RET` reads a live entry (R121). -/
theorem execRet_withStorage (hlive : s.LiveIn k) (h : execRet s = .next t) :
    execRet (s.withStorage k m) = .next (t.withStorage k m) ∧ t.LiveIn k ∧ t.stack = s.stack := by
  obtain ⟨t', ht'⟩ := exec_answers .ret (s.withStorage k m)
  have hsp : (s.withStorage k m).sp = s.sp := rfl
  obtain ⟨hempty, rfl⟩ | ⟨hpos, hlt, rfl⟩ := execRet_cases h
  · exact ⟨execRet_of_empty hempty, hlive, rfl⟩
  · obtain ⟨hempty, -⟩ | ⟨_, _, rfl⟩ := execRet_cases ht'
    · omega
    · refine ⟨ht'.trans ?_, fun j hj hj' => hlive j hj (Nat.lt_of_lt_pred hj'), rfl⟩
      exact congrArg (fun w => Host.Outcome.next
        ((({ s with sp := ⟨s.sp.val - 1, Nat.lt_succ_of_lt hlt⟩ } : State).setPC w).withStorage k m))
        (hlive _ hlt (by omega))

/-- `CALL` writes an entry and reads none (R123). -/
theorem execCall_withStorage {nnn : Addr12} (hlive : s.LiveIn k) (h : execCall nnn s = .next t) :
    ∃ k', execCall nnn (s.withStorage k m) = .next (t.withStorage k' m) ∧ t.LiveIn k' ∧
      (k = s.stack → k' = t.stack) := by
  obtain ⟨t', ht'⟩ := exec_answers (.call nnn) (s.withStorage k m)
  have hsp : (s.withStorage k m).sp = s.sp := rfl
  obtain ⟨hfull, rfl⟩ | ⟨hlt, rfl⟩ := execCall_cases h
  · exact ⟨k, execCall_of_full nnn hfull, hlive, id⟩
  · obtain ⟨hfull, -⟩ | ⟨_, rfl⟩ := execCall_cases ht'
    · omega
    · refine ⟨_, ht', fun j hj hj' => ?_, fun hk => by subst hk; rfl⟩
      have hj' : j < s.sp.val + 1 := hj'
      show (k.set s.sp.val s.npc hlt)[j] = (s.stack.set s.sp.val s.npc hlt)[j]
      rw [Vector.getElem_set, Vector.getElem_set]
      split
      · rfl
      · exact hlive j hj (by omega)

/-- All that a handler which stores nothing reads of the storage are the live entries and blocks of memory. -/
theorem exec_withStorage {i : Instr} (hlive : s.LiveIn k)
    (hm : ∀ a n, m.readBlock a n = s.mem.readBlock a n) (hstore : ¬ i.WritesMemory)
    (h : exec i s = .next t) :
    ∃ k', exec i (s.withStorage k m) = .next (t.withStorage k' m) ∧ t.LiveIn k' ∧
      (k = s.stack → k' = t.stack) := by
  cases i with
  | ldB x => exact absurd (.inl ⟨x, rfl⟩) hstore
  | storeRegs x => exact absurd (.inr ⟨x, rfl⟩) hstore
  | ret =>
    obtain ⟨he, hlive', hstack⟩ := execRet_withStorage (m := m) hlive h
    exact ⟨k, he, hlive', fun hk => hk.trans hstack.symm⟩
  | call nnn => exact execCall_withStorage hlive h
  | drw x y n =>
    have hread : (s.withStorage k m).mem.readBlock (s.withStorage k m).blockBase n.toNat =
      s.mem.readBlock s.blockBase n.toNat := hm _ _
    simp only [exec, execDrw, hread] at h ⊢
    split at h <;> (obtain rfl := Host.Outcome.next.inj h; exact ⟨k, rfl, hlive, id⟩)
  | loadRegs x =>
    have hread : (s.withStorage k m).mem.readBlock (s.withStorage k m).blockBase (x.toNat + 1) =
      s.mem.readBlock s.blockBase (x.toNat + 1) := hm _ _
    simp only [exec, execLoadRegs, hread] at h ⊢
    split at h <;> (obtain rfl := Host.Outcome.next.inj h; exact ⟨k, rfl, hlive, id⟩)
  | ldVxK x =>
    have hkeys : (s.withStorage k m).keys = s.keys := rfl
    simp only [exec, execLdVxK, hkeys] at h ⊢
    split at h <;> (obtain rfl := Host.Outcome.next.inj h; exact ⟨k, rfl, hlive, id⟩)
  | _ =>
    obtain rfl := Host.Outcome.next.inj h
    exact ⟨k, rfl, hlive, id⟩

/-- A block store reads nothing of the storage: whether it faults depends on `I`. -/
theorem storeBlock_withStorage {bs : List Byte} (hn : 0 < bs.length) (h : storeBlock bs s = .next t) :
    (t = s.latch .outOfBoundsMemory ∧ storeBlock bs (s.withStorage k m) = .next (t.withStorage k m)) ∨
    (s.blockBase + bs.length ≤ 0x1000 ∧ t = (s.setMem (s.mem.pokeList s.blockBase bs)).advance ∧
      storeBlock bs (s.withStorage k m) = .next (t.withStorage k (m.pokeList s.blockBase bs))) := by
  obtain ⟨hout, rfl⟩ | ⟨hin, rfl⟩ := storeBlock_cases hn h
  · exact .inl ⟨rfl, storeBlock_of_lt hn hout⟩
  · exact .inr ⟨hin, rfl, storeBlock_of_le hin⟩

/-- The two handlers that store are a block store of bytes which the registers give. -/
theorem exec_eq_storeBlock {i : Instr} (hi : i.WritesMemory) :
    ∃ bs, 0 < bs.length ∧ exec i s = storeBlock bs s ∧
      ∀ k m, exec i (s.withStorage k m) = storeBlock bs (s.withStorage k m) := by
  obtain ⟨x, rfl⟩ | ⟨x, rfl⟩ := hi
  · exact ⟨bcdDigits (s.reg x), by simp [bcdDigits], rfl, fun _ _ => rfl⟩
  · exact ⟨s.regsUpTo x, by simp, rfl, fun _ _ => rfl⟩

end

/-! ### Dead stack entries (R25, D19) -/

theorem sameButDeadStack_iff {s s' : State} :
    SameButDeadStack s s' ↔ ∃ k, s' = s.withStorage k s.mem ∧ s.LiveIn k := by
  constructor
  · rintro ⟨hrest, hlive⟩
    exact ⟨s'.stack, hrest, hlive⟩
  · rintro ⟨k, rfl, hlive⟩
    exact ⟨rfl, hlive⟩

theorem sameButDeadStack_exec {s s' t t' : State} (i : Instr) (hrel : SameButDeadStack s s')
    (h : exec i s = .next t) (h' : exec i s' = .next t') : SameButDeadStack t t' := by
  obtain ⟨k, rfl, hlive⟩ := sameButDeadStack_iff.1 hrel
  by_cases hstore : i.WritesMemory
  · obtain ⟨bs, hn, he, he'⟩ := exec_eq_storeBlock (s := s) hstore
    rw [he] at h
    rw [he'] at h'
    obtain ⟨rfl, hs⟩ | ⟨-, rfl, hs⟩ := storeBlock_withStorage (k := k) (m := s.mem) hn h
    · obtain rfl := Host.Outcome.next.inj (hs.symm.trans h')
      exact ⟨rfl, hlive⟩
    · obtain rfl := Host.Outcome.next.inj (hs.symm.trans h')
      exact ⟨rfl, hlive⟩
  · obtain ⟨k', he, hlive', -⟩ := exec_withStorage hlive (fun _ _ => rfl) hstore h
    obtain rfl := Host.Outcome.next.inj (he.symm.trans h')
    have hmem := (exec_memory h).resolve_right hstore
    exact sameButDeadStack_iff.2 ⟨k', by rw [hmem], hlive'⟩

theorem lockstep_sameButDeadStack : Lockstep SameButDeadStack where
  fault h := by rw [h.rest]
  fetch h := by
    obtain ⟨k, rfl, -⟩ := sameButDeadStack_iff.1 h
    rfl
  latch c h := by
    obtain ⟨k, rfl, hlive⟩ := sameButDeadStack_iff.1 h
    exact ⟨rfl, hlive⟩
  clearReport h := by
    obtain ⟨k, rfl, hlive⟩ := sameButDeadStack_iff.1 h
    exact ⟨rfl, hlive⟩
  endCycle h := by
    obtain ⟨k, rfl, hlive⟩ := sameButDeadStack_iff.1 h
    rw [State.withStorage_endCycle, State.endCycle_eq]
    exact ⟨rfl, hlive⟩
  exec := sameButDeadStack_exec

/-- Settles O52: no part of a cycle tells two states with the same live entries apart. -/
theorem deadStackEntriesAreUnobservable : Obligations.DeadStackEntriesAreUnobservable :=
  fun _ _ _ _ => lockstep_sameButDeadStack.step

/-! ### The configured glyph table (R52, U11) -/

/-- Memories that read alike give the same blocks. -/
theorem Memory.readBlock_congr {m m' : Memory} (h : ∀ a, m.read? a = m'.read? a) (a n : Nat) :
    m.readBlock a n = m'.readBlock a n := by
  by_cases hin : n = 0 ∨ a + n ≤ 0x1000
  · rw [Memory.readBlock_of_le hin, Memory.readBlock_of_le hin]
    refine congrArg some (List.map_congr_left fun k hk => ?_)
    have ha : a + k ≤ 0xFFF := by have := List.mem_range.1 hk; omega
    simpa [Memory.read?_of_le ha] using h (a + k)
  · rw [Memory.readBlock_of_lt (by omega) (by omega), Memory.readBlock_of_lt (by omega) (by omega)]

/-- Memories that read alike do so after the same block write. -/
theorem Memory.read?_pokeList_congr {m m' : Memory} (hw : m.wf = true) (hw' : m'.wf = true)
    (h : ∀ a, m.read? a = m'.read? a) {a : Nat} {bs : List Byte} (hin : a + bs.length ≤ 0x1000) (c : Nat) :
    (m.pokeList a bs).read? c = (m'.pokeList a bs).read? c := by
  by_cases hc : a ≤ c ∧ c < a + bs.length
  · obtain ⟨j, rfl⟩ := Nat.exists_eq_add_of_le hc.1
    have hj : j < bs.length := by omega
    rw [Memory.read?_pokeList_inside hw hin hj, Memory.read?_pokeList_inside hw' hin hj]
  · rw [Memory.read?_pokeList_outside hw hin hc, Memory.read?_pokeList_outside hw' hin hc, h]

theorem sameButConfig_iff {s s' : State} :
    SameButConfig s s' ↔ ∃ m, s' = s.withStorage s.stack m ∧ (∀ a, m.read? a = s.mem.read? a) ∧
      s.mem.wf = true ∧ m.wf = true := by
  constructor
  · rintro ⟨hrest, hreads, hw, hw'⟩
    exact ⟨s'.mem, hrest, hreads, hw, hw'⟩
  · rintro ⟨m, rfl, hreads, hw, hw'⟩
    exact ⟨rfl, hreads, hw, hw'⟩

theorem sameButConfig_exec {s s' t t' : State} (i : Instr) (hrel : SameButConfig s s')
    (h : exec i s = .next t) (h' : exec i s' = .next t') : SameButConfig t t' := by
  obtain ⟨m, rfl, hreads, hw, hw'⟩ := sameButConfig_iff.1 hrel
  by_cases hstore : i.WritesMemory
  · obtain ⟨bs, hn, he, he'⟩ := exec_eq_storeBlock (s := s) hstore
    rw [he] at h
    rw [he'] at h'
    obtain ⟨rfl, hs⟩ | ⟨hin, rfl, hs⟩ := storeBlock_withStorage (k := s.stack) (m := m) hn h
    · obtain rfl := Host.Outcome.next.inj (hs.symm.trans h')
      exact ⟨rfl, hreads, hw, hw'⟩
    · obtain rfl := Host.Outcome.next.inj (hs.symm.trans h')
      exact ⟨rfl, Memory.read?_pokeList_congr hw' hw hreads hin, Memory.wf_pokeList hw (.inr hin),
        Memory.wf_pokeList hw' (.inr hin)⟩
  · obtain ⟨k', he, -, hstack⟩ :=
      exec_withStorage (k := s.stack) (fun _ _ _ => rfl) (Memory.readBlock_congr hreads) hstore h
    obtain rfl := Host.Outcome.next.inj (he.symm.trans h')
    have hmem := (exec_memory h).resolve_right hstore
    rw [hstack rfl]
    exact sameButConfig_iff.2 ⟨m, rfl, by rwa [hmem], by rwa [hmem], hw'⟩

theorem lockstep_sameButConfig : Lockstep SameButConfig where
  fault h := by rw [h.rest]
  fetch h := by
    obtain ⟨m, rfl, hreads, -⟩ := sameButConfig_iff.1 h
    exact State.withStorage_fetch _ _ hreads
  latch c h := by
    obtain ⟨m, rfl, hreads, hw⟩ := sameButConfig_iff.1 h
    exact ⟨rfl, hreads, hw⟩
  clearReport h := by
    obtain ⟨m, rfl, hreads, hw⟩ := sameButConfig_iff.1 h
    exact ⟨rfl, hreads, hw⟩
  endCycle h := by
    obtain ⟨m, rfl, hreads, hw⟩ := sameButConfig_iff.1 h
    rw [State.withStorage_endCycle, State.endCycle_eq]
    exact ⟨rfl, hreads, hw⟩
  exec := sameButConfig_exec

/-- Settles O54: no part of a cycle tells two states whose memories read alike apart. -/
theorem tableIsSeenThroughMemoryOnly : Obligations.TableIsSeenThroughMemoryOnly :=
  fun _ _ _ _ => lockstep_sameButConfig.step

end Sys2Proof.Machine
end

section
/-! PROOFS. The statements about whole cycles and runs: what a step adds to its handler (R103 to R106), the
diagnostic (R185), the latch (R28), the delay timer over a run (R177), the wait for a key (R174). -/

namespace Sys2Proof.Machine

/-! ### What a step adds to its handler (R103 to R106) -/

/-- Two bytes read at `PC` and above it are the word of the fetch (R101). -/
theorem State.fetch_of_read? {s : State} {hi lo : Byte} (hhi : s.mem.read? s.pc.toNat = some hi)
    (hlo : s.mem.read? (s.pc.toNat + 1) = some lo) : s.fetch = some (wordOfBytes hi lo) := by
  simp only [State.fetch, hhi, hlo]
  rfl

/-- Settles O11: the word of the two bytes is fetched, and the end of the cycle touches the timers and the
latch. -/
theorem stepRunsTheDecodedInstruction : Obligations.StepRunsTheDecodedInstruction := by
  intro s t hi lo rest i hf hhi hlo hdec he
  obtain rfl : decode (wordOfBytes hi lo) = i := (Prod.mk.inj (Except.ok.inj hdec)).1
  have hstep := step_of_exec hf (State.fetch_of_read? hhi hlo) he
  refine ⟨fun ht => ⟨_, hstep.trans (if_pos ht), ?_⟩, fun ht => hstep.trans (if_neg ht)⟩
  have hinputs : t.keyInputs = s.keyInputs := (exec_inputs he).2
  rw [State.endCycle_eq, hinputs]
  exact ⟨tickTimer_toNat _, tickTimer_toNat _, rfl, rfl, rfl⟩

/-! ### The diagnostic (R185) -/

/-- Settles O17: only the handler of an unknown word reports, and it reports its word. -/
theorem diagnosticReportsTheUnknownWord : Obligations.DiagnosticReportsTheUnknownWord := by
  intro s t ir hf hir h ht
  cases hrec : recognised ir with
  | false =>
    rw [step_of_not_recognised hf hir hrec, State.endCycle_eq] at h
    obtain rfl := Host.Outcome.next.inj h
    rfl
  | true =>
    obtain ⟨ir', u, hir', he, rfl⟩ := step_completed h hf ht
    obtain rfl := Option.some.inj (hir'.symm.trans hir)
    obtain hsame | ⟨w, hw⟩ := exec_report he
    · rw [State.endCycle_eq]
      exact hsame
    · rw [(decode_eq_unknown_iff.1 hw).2] at hrec
      cases hrec

/-! ### The latch (R28, R193) -/

/-- A step that leaves the latch clear ran on a running core. -/
theorem fault_of_step {s t : State} (h : step s = .next t) (ht : t.fault = .none) : s.fault = .none := by
  by_contra hf
  rw [step_of_halted hf] at h
  obtain rfl := Host.Outcome.next.inj h
  exact hf ht

/-- Settles O18: no handler changes the inputs, and the end of the cycle takes the next write. -/
theorem latchIsWrittenByTheEnvironmentOnly : Obligations.LatchIsWrittenByTheEnvironmentOnly := by
  refine ⟨fun i s t => exec_inputs, fun s t h ht => ?_⟩
  obtain ⟨ir, u, -, he, rfl⟩ := step_completed h (fault_of_step h ht) ht
  obtain ⟨hkeys, hinputs⟩ := exec_inputs he
  rw [State.endCycle_eq, hkeys, hinputs]
  exact ⟨rfl, rfl⟩

/-! ### The delay timer over a run (R177, R218) -/

/-- A safe run of one cycle more is a completed cycle and then a safe run: a fault would last to the end. -/
theorem SafeRun.succ {k : Nat} {s t : State} (h : SafeRun (k + 1) s t) :
    ∃ u, step s = .next u ∧ u.fault = .none ∧ SafeRun k u t := by
  obtain ⟨hrun, ht⟩ := h
  obtain ⟨u, hstep, hrest⟩ := run_succ_cases hrun
  refine ⟨u, hstep, ?_, hrest, ht⟩
  by_contra hu
  rw [run_of_halted hu] at hrest
  obtain rfl := Host.Outcome.next.inj hrest
  exact hu ht

/-- Settles O16, by induction on the number of cycles: each of them takes one from the timer. -/
theorem delayTimerCountsCycles : Obligations.DelayTimerCountsCycles := by
  intro k
  induction k with
  | zero =>
    intro s t h _
    obtain rfl := Host.Outcome.next.inj h.1
    rfl
  | succ k ih =>
    intro s t h hno
    obtain ⟨u, hstep, hu, hrest⟩ := h.succ
    obtain ⟨-, htick, -⟩ := (timersTickOncePerCompletedCycle s u hstep).1 (fault_of_step hstep hu) hu
    have hfirst := htick (hno 0 s (Nat.succ_pos k) rfl)
    have hlater := ih u t hrest fun m v hm hv =>
      hno (m + 1) v (Nat.succ_lt_succ hm) ((run_succ m hstep).trans hv)
    omega

/-! ### The wait for a key (R174, R221) -/

/-- A running core at `LD Vx, K` with no key down and none coming. -/
structure WaitsForKey (x : RegId) (s : State) : Prop where
  running : s.fault = .none
  waiting : Executes s (.ldVxK x)
  no_key : ∀ q ∈ s.keys :: s.keyInputs, q = 0

/-- Everything but the timers, the inputs and the diagnostic is the same. -/
def SameWhileWaiting (s t : State) : Prop :=
  t = { s with dt := t.dt, st := t.st, keys := t.keys, keyInputs := t.keyInputs, unknownIr := t.unknownIr }

theorem SameWhileWaiting.trans {s t u : State} (h : SameWhileWaiting s t) (h' : SameWhileWaiting t u) :
    SameWhileWaiting s u := by
  unfold SameWhileWaiting at h'
  rw [h] at h'
  exact h'

/-- With no key down the handler rewinds to the instruction itself and changes nothing. -/
theorem execLdVxK_of_no_key {x : RegId} {s : State} (h : s.keys = 0) : execLdVxK x s = .next s := by
  rw [execLdVxK, lowestKey_eq_none.2 h, State.npc_sub_two]
  rfl

/-- After a cycle the latch holds the coming write or its old value. -/
theorem mem_inputs_endCycle {s : State} {q : BitVec 16}
    (h : q ∈ s.endCycle.keys :: s.endCycle.keyInputs) : q ∈ s.keys :: s.keyInputs := by
  rw [State.endCycle_eq] at h
  cases hin : s.keyInputs with
  | nil => simpa [hin] using h
  | cons k ks =>
    refine List.mem_cons_of_mem _ ?_
    simpa [hin] using h

/-- A cycle of a waiting core only ends: it ticks, and the core waits on. -/
theorem WaitsForKey.step {x : RegId} {s : State} (h : WaitsForKey x s) :
    ∃ u, step s = .next u ∧ WaitsForKey x u ∧ SameWhileWaiting s u ∧ u.dt.toNat = s.dt.toNat - 1 ∧
      u.st.toNat = s.st.toNat - 1 := by
  obtain ⟨hf, ⟨ir, hir, hdec⟩, hkeys⟩ := h
  have he : exec (decode ir) s.clearReport = .next s.clearReport := by
    rw [hdec]
    exact execLdVxK_of_no_key (hkeys s.keys List.mem_cons_self)
  have hkeys' : ∀ q ∈ s.clearReport.endCycle.keys :: s.clearReport.endCycle.keyInputs, q = 0 :=
    fun q hq => hkeys q (mem_inputs_endCycle (s := s.clearReport) hq)
  refine ⟨_, (step_of_exec hf hir he).trans (if_pos hf), ?_⟩
  rw [State.endCycle_eq] at hkeys' ⊢
  exact ⟨⟨hf, ⟨ir, hir, hdec⟩, hkeys'⟩, rfl, tickTimer_toNat _, tickTimer_toNat _⟩

/-- By induction on the number of cycles: a waiting core waits on. -/
theorem WaitsForKey.run {x : RegId} (k : Nat) {s : State} (h : WaitsForKey x s) :
    ∃ t, Host.Core.run core k s = .next t ∧ WaitsForKey x t ∧ SameWhileWaiting s t ∧
      t.dt.toNat = s.dt.toNat - k ∧ t.st.toNat = s.st.toNat - k := by
  induction k generalizing s with
  | zero => exact ⟨s, rfl, h, rfl, rfl, rfl⟩
  | succ k ih =>
    obtain ⟨u, hstep, hu, hsame, hdt, hst⟩ := h.step
    obtain ⟨t, hrun, ht, hsame', hdt', hst'⟩ := ih hu
    exact ⟨t, (run_succ k hstep).trans hrun, ht, hsame.trans hsame', by omega, by omega⟩

/-- Settles O45: the parts it names are the same while the core waits, and the timers fall. -/
theorem waitingForAKeyOnlyTicksTheTimers : Obligations.WaitingForAKeyOnlyTicksTheTimers := by
  intro k x s hf hx hkeys
  obtain ⟨t, hrun, ⟨ht, -, -⟩, hsame, hdt, hst⟩ := WaitsForKey.run k ⟨hf, hx, hkeys⟩
  refine ⟨t, hrun, ht, ?_⟩
  rw [hsame] at hdt hst ⊢
  exact ⟨rfl, fun _ => rfl, hdt, hst, rfl, rfl, rfl, rfl, rfl⟩

end Sys2Proof.Machine
end

section
/-! PROOFS. The remaining statements about single instructions and two in turn: a call and its return (R121,
R123), the random byte (R143), two draws (R164) and the display output (R197). -/

namespace Sys2Proof.Machine

open Sys2Proof.Laws

/-! ### A call and its return (R121, R123) -/

/-- Settles O22: the return pops the entry that the call pushed, and the depth is as before. -/
theorem retAfterCallResumesAfterTheCall : Obligations.RetAfterCallResumesAfterTheCall := by
  intro nnn s t hlt h
  obtain ⟨u, hu⟩ := exec_answers .ret t
  have hret : execRet t = .next u := hu
  obtain ⟨hfull, -⟩ | ⟨_, rfl⟩ := execCall_cases h
  · omega
  · obtain ⟨hempty, -⟩ | ⟨_, _, rfl⟩ := execRet_cases hret
    · exact absurd hempty (Nat.succ_ne_zero _)
    · exact ⟨_, hu, Vector.getElem_set_self hlt, rfl, fun k hk => Vector.getElem?_set_ne hlt hk.ne',
        OnlyPCChanges.of_setPC _ _⟩

/-! ### The random byte (R143) -/

theorem and_and_not_self (a b : Byte) : a &&& b &&& ~~~b = 0 := by
  rw [BitVec.and_assoc, BitVec.and_not_self]
  exact BitVec.and_zero

/-- Settles O30: the handler is one register write, of the masked byte, and a count of the draw. -/
theorem randomByteIsMasked : Obligations.RandomByteIsMasked := fun x nn s =>
  ⟨EncodeDecode.rnd x nn rfl, _, _, rfl, rfl,
    fun k _ => (s.countDraw.getLsbD_reg_setReg_same x _ k).trans BitVec.getLsbD_and,
    (congrArg (· &&& ~~~nn) (s.countDraw.reg_setReg_same x _)).trans (and_and_not_self _ nn), rfl, rfl,
    .of_setReg s.countDraw x _⟩

/-! ### The display (R164, R194, R197) -/

/-- The sprite lies where the coordinate registers say, whatever else the states differ in. -/
theorem spriteCovers_congr {s t : State} {x y : RegId} (hx : t.reg x = s.reg x) (hy : t.reg y = s.reg y)
    (hi : t.i = s.i) (hm : SameMemory s t) {n c r : Nat} :
    SpriteCovers t x y n c r ↔ SpriteCovers s x y n c r := by
  have hbase : t.blockBase = s.blockBase := congrArg BitVec.toNat hi
  simp only [SpriteCovers, hx, hy, hbase, hm _]

/-- Settles O41: the second draw covers the same pixels and flips each of them back. -/
theorem drawingTwiceRestoresTheFramebuffer : Obligations.DrawingTwiceRestoresTheFramebuffer := by
  intro x y n s t hin h hx hy
  obtain ⟨t', ht', hflip, hkeep, -, -, -, hframe⟩ := (drawXorsTheSpriteAndReportsCollision x y n s).2.1 hin
  obtain rfl := Host.Outcome.next.inj (h.symm.trans ht')
  have hcov {c r : Nat} : SpriteCovers t x y n.toNat c r ↔ SpriteCovers s x y n.toNat c r :=
    spriteCovers_congr hx hy hframe.index hframe.memory
  have hbase : t.blockBase = s.blockBase := congrArg BitVec.toNat hframe.index
  obtain ⟨u, hu, hflip', hkeep', hhit, -⟩ :=
    (drawXorsTheSpriteAndReportsCollision x y n t).2.1 (by rwa [hbase])
  refine ⟨u, hu, fun c r hc hr => ?_, ?_⟩
  · by_cases hs : SpriteCovers s x y n.toNat c r
    · rw [hflip' c r hc hr (hcov.2 hs), hflip c r hc hr hs, Bool.not_not]
    · rw [hkeep' c r hc hr (mt hcov.1 hs), hkeep c r hc hr hs]
  · rintro ⟨c, r, hc, hr, hs, hoff⟩
    exact hhit ⟨c, r, hc, hr, hcov.2 hs, by rw [hflip c r hc hr hs, hoff]; rfl⟩

/-- Settles O42: the bit number splits into its row and its column. -/
theorem displayOutputIsRowMajor : Obligations.DisplayOutputIsRowMajor := by
  intro s c r hc _
  have hcol : (r * 64 + c) % 64 = c := by omega
  have hrow : (r * 64 + c) / 64 = r := by omega
  rw [State.fbBit, hcol, hrow]

end Sys2Proof.Machine
end

section
/-! PROOFS. The remaining statements of `20_memory.md` and of loads and stores in turn: canonical memories
(log 9), a dump and a load (R156, R157), a store and a fetch (R65), a placed word (log 11), the configured
glyph table (R53, U11). -/

namespace Sys2Proof.Machine

/-! ### Canonical memories (log 9) -/

/-- Nothing is listed above 0xFFF: a canonical memory reads there as its table says. -/
theorem Memory.peek_of_top_lt {m : Memory} (hw : m.wf = true) {a : Nat} (h : 0xFFF < a) :
    m.peek a = unlisted m.glyphs a := peekCells_of_top_lt hw h

/-- Settles O38: the checked reads give every byte up to 0xFFF, and the canonical form the rest. -/
theorem canonicalMemoriesThatReadAlikeAreEqual : Obligations.CanonicalMemoriesThatReadAlikeAreEqual := by
  intro m m' hg hw hw' h
  refine Memory.eq_of_peek hg hw hw' fun a => ?_
  rcases Nat.lt_or_ge 0xFFF a with ha | ha
  · rw [Memory.peek_of_top_lt hw ha, Memory.peek_of_top_lt hw' ha, hg]
  · simpa [Memory.read?_of_le ha] using h a

/-! ### A dump and then a load, or a fetch (R65, R156, R157) -/

/-- Settles O36: the load reads back what the dump stored, and above `x` neither writes a register. -/
theorem loadAfterDumpRestoresTheRegisters : Obligations.LoadAfterDumpRestoresTheRegisters := by
  intro x s hw hin
  obtain ⟨t, ht, hstored, -, -, hdump⟩ := (registerDumpStoresTheBlock x s hw).2.1 hin
  have hbase : t.blockBase = s.blockBase := congrArg BitVec.toNat hdump.index
  obtain ⟨u, hu, hloaded, -, hload⟩ := (registerLoadReadsTheBlock x t).2.1 (by rwa [hbase])
  have hregs (r : RegId) : u.reg r = s.reg r := by
    have hst : t.reg r = s.reg r := hdump.regs r id
    by_cases hr : r.toNat ≤ x.toNat
    · have hread := hloaded r hr
      rw [hbase, hstored r hr] at hread
      exact (Option.some.inj hread).symm
    · rw [hload.regs r hr, hst]
  exact ⟨t, u, ht, hu, hregs, { hload with regs := fun r _ => (hregs r).trans (hdump.regs r id).symm }⟩

/-- A dump in a completed cycle stored every byte: one outside memory would have faulted (R150). -/
theorem storeRegs_in_range {x : RegId} {s u : State} (h : exec (.storeRegs x) s = .next u)
    (hu : u.fault = .none) : s.blockBase + x.toNat ≤ 0xFFF := by
  obtain ⟨-, rfl⟩ | ⟨hin, -⟩ := storeBlock_cases (by simp) h
  · cases hu
  · rw [State.regsUpTo_length] at hin
    omega

/-- Settles O37: the cycle commits the dump, and the fetch reads two of the bytes it stored. -/
theorem storesAreSeenByTheNextFetch : Obligations.StoresAreSeenByTheNextFetch := by
  intro x k l s t hw hf hx h ht hkl hlx
  obtain ⟨ir, u, hir, he, rfl⟩ := step_completed h hf ht
  rw [(executes_iff hir _).1 hx] at he
  have hin := storeRegs_in_range he (u.endCycle_fault.symm.trans ht)
  obtain ⟨u', hu', hstored, -⟩ := (registerDumpStoresTheBlock x s.clearReport hw).2.1 hin
  obtain rfl := Host.Outcome.next.inj (he.symm.trans hu')
  have hbase : s.clearReport.blockBase = s.i.toNat := rfl
  have hk : (k.setWidth 16).toNat = k.toNat := BitVec.toNat_setWidth_of_le (by decide)
  have hpc : (s.i + k.setWidth 16).toNat = s.i.toNat + k.toNat := by
    rw [BitVec.toNat_add_of_lt (by omega), hk]
  have hmem : u.endCycle.mem = u.mem := by rw [State.endCycle_eq]
  refine State.fetch_of_read? ?_ ?_
  · show u.endCycle.mem.read? (s.i + k.setWidth 16).toNat = some (s.reg k)
    rw [hmem, hpc]
    exact hstored k (by omega)
  · show u.endCycle.mem.read? ((s.i + k.setWidth 16).toNat + 1) = some (s.reg l)
    rw [hmem, hpc, Nat.add_assoc, ← hkl]
    exact hstored l hlx

/-! ### A placed word (log 11) -/

theorem State.readyToFetch_pc_le (s : State) : s.readyToFetch.pc.toNat ≤ 0xFFE := by
  show (if s.pc.toNat + 1 ≤ 0xFFF then s.pc else 0x200).toNat ≤ 0xFFE
  split
  · omega
  · decide

/-- A core that can fetch is ready as it is. -/
theorem State.readyToFetch_of_le {s : State} (hf : s.fault = .none) (hpc : s.pc.toNat ≤ 0xFFE) :
    s.readyToFetch = s := by
  rw [State.readyToFetch, if_pos (Nat.succ_le_succ hpc), ← hf]

/-- The two bytes placed at `PC` are what the fetch reads. -/
theorem State.fetch_placeWord {s : State} (ir : Word) (hw : s.mem.wf = true) (hpc : s.pc.toNat ≤ 0xFFE) :
    (s.placeWord ir).fetch = some ir := by
  have hin : s.pc.toNat + [hiByte ir, loByte ir].length ≤ 0x1000 := Nat.add_le_add_right hpc 2
  have hhi := Memory.read?_pokeList_inside (k := 0) hw hin (by simp)
  have hlo := Memory.read?_pokeList_inside (k := 1) hw hin (by simp)
  exact (State.fetch_of_read? hhi hlo).trans (congrArg some (wordOfBytes_hi_lo ir))

/-- Settles O49: the core is made ready to fetch, and the fetch reads the word placed. -/
theorem placedWordIsTheNextInstruction : Obligations.PlacedWordIsTheNextInstruction := by
  intro s nbits w i hw hdec
  rw [decodeTableWord_eq] at hdec
  refine ⟨rfl, ⟨_, State.fetch_placeWord _ hw s.readyToFetch_pc_le, Option.some.inj hdec⟩, fun hf hpc => ?_⟩
  rw [State.withFetchWord, State.readyToFetch_of_le hf hpc]
  rfl

/-! ### The configured glyph table (R53, U11) -/

/-- Settles O53: reset reads as the table, no handler changes it, and nothing else writes but in memory's
cells. -/
theorem glyphTableIsConfiguration : Obligations.GlyphTableIsConfiguration := by
  refine ⟨fun g => ⟨rfl, rfl, fun k hk => State.resetWith_read?_glyph g hk⟩, fun _ _ _ => exec_config,
    fun s t h => ?_, fun s t image h => ?_,
    fun s => ⟨rfl, fun k hk => State.resetWith_read?_glyph s.mem.glyphs hk⟩⟩
  · obtain ⟨-, rfl⟩ | ⟨-, -, rfl⟩ | ⟨-, ir, u, -, he, ⟨-, rfl⟩ | ⟨-, rfl⟩⟩ := step_cases h
    · rfl
    · rfl
    · rw [State.endCycle_eq]
      have hconfig : SameConfig s.clearReport u := exec_config he
      exact hconfig
    · rfl
  · rcases Nat.lt_or_ge 0xE00 image.length with hlen | hlen
    · rw [State.loadProgram_of_lt _ hlen] at h
      cases h
    · rw [State.loadProgram_of_le _ hlen] at h
      obtain rfl := Except.ok.inj h
      exact Memory.pokeList_glyphs image s.mem 0x200

end Sys2Proof.Machine
end
